-- ==== Sys2Proof/Word.lean ====
section
/-!
DEFINITION. The widths of the engine's data (spec/00_scope.md R6) and the sample of its input ports
(spec/30_encoding.md R60). Bits are numbered from 0 at the least significant bit and every value is
unsigned (R9).
-/

namespace Sys2Proof

/-- A nibble: an index into a row of the substitution table, or one of its entries (R41, R81). -/
abbrev Nibble := BitVec 4

/-- A byte of a block, of a key or of a half-block (R44 to R47). -/
abbrev Byte := BitVec 8

/-- A half-block or a key fragment, 32 bits (R6). -/
abbrev Word := BitVec 32

/-- A block, 64 bits, and the width of `block_in`, `block_out` and `DOUT` (R6, R60). -/
abbrev Block := BitVec 64

/-- The key as it stands on `key_in`, 256 bits (R6, R60). -/
abbrev KeyBits := BitVec 256

/-- A substitution table: 8 rows of 16 columns of 4-bit entries (R7, R41). It is a parameter of the
machine and never part of its state (R82). -/
abbrev SBoxTable := Fin 8 → Fin 16 → Fin 16

/-- The values of the input ports sampled at one rising edge of `clk` (R60, R13). -/
structure EdgeInput where
  /-- `rst`, synchronous, active high (R180) -/
  rst : Bool
  /-- `cmd_valid`: 1 when `cmd` holds a command this edge (R61) -/
  cmdValid : Bool
  /-- `cmd[1:0]` (R64) -/
  cmd : BitVec 2
  /-- `block_in[63:0]` (R62) -/
  blockIn : Block
  /-- `key_in[255:0]` (R63) -/
  keyIn : KeyBits
  deriving DecidableEq, Repr

/-- An edge with `rst = 0` and `cmd_valid = 0`: no command (R66). The other ports are ignored. -/
def EdgeInput.idle : EdgeInput :=
  { rst := false, cmdValid := false, cmd := 0, blockIn := 0, keyIn := 0 }

/-- An edge with `rst = 1` and `cmd_valid = 0` (R69, `RESET`). -/
def EdgeInput.reset : EdgeInput :=
  { rst := true, cmdValid := false, cmd := 0, blockIn := 0, keyIn := 0 }

end Sys2Proof
end

