-- ==== Sys2Proof/Config.lean ====
section
/-!
DEFINITION. What an implementation fixes: the sizes of spec/00_scope.md R6 that the definitions use,
and the values the spec leaves open, as constants without a body.
-/

namespace Sys2Proof

/-- The engine's substitution table, the open parameter `SBOX` (R7, R41, R82; log 1).
DESIGN CHOICE in its form: the fixed type of `step` has no room for an argument, so the table the
hardware was built with is an opaque constant. No value of it can be proved. -/
opaque Config.sbox : SBoxTable

/-- Whether a host checks the key's length before the buffer's. The spec leaves the order open
(spec/91_not_in_source.md N19, spec/93_implementation_defined.md I9; log 9). -/
opaque Config.hostChecksKeyFirst : Bool

/-- ROT_AMOUNT: the count of the rotation inside each byte (R6, R94). -/
def Config.rotAmount : Nat := 11

/-- ROUNDS: the number of Feistel rounds of a block (R6). -/
def Config.rounds : Nat := 32

/-- The index of the terminal round (R112, spec/90_conflicts.md C1). -/
def Config.terminalRound : BitVec 5 := 31

/-- BLOCK_BITS / 8: the bytes of a block (R6). -/
def Config.blockBytes : Nat := 8

/-- KEY_BITS / 8: the bytes of a key (R6). -/
def Config.keyBytes : Nat := 32

end Sys2Proof
end

