-- ==== Sys2Proof/Syntax.lean ====
section
/-!
DEFINITION. The commands of the engine, one constructor for each row of spec/opcode_table.json
(spec/30_encoding.md R64). A command carries the operand that is sampled at the same edge (R61); the
port that a command ignores is no part of it (R62, R63, R65).
-/

namespace Sys2Proof

/-- A command with its operand (R61, R64). The four codes are the whole command set (R73). -/
inductive Instr where
  /-- ENC, `cmd = 00`: start the encryption of the block on `block_in` (R130) -/
  | enc (block : Block)
  /-- DEC, `cmd = 01`: start the decryption of the block on `block_in` (R131) -/
  | dec (block : Block)
  /-- LOADKEY, `cmd = 10`: load the key on `key_in` (R132) -/
  | loadkey (key : KeyBits)
  /-- ILLEGAL, `cmd = 11`: the reserved code, which has no operand (R65, R164) -/
  | illegal
  deriving DecidableEq, Repr

end Sys2Proof
end

