-- ==== Sys2Proof/Machine/State.lean ====
section
/-!
DEFINITION. The engine's state: every register of spec/10_state.md section 1, the mark "unreset" of
spec/70_reset_and_hazards.md R182, and the samples the input ports will show (log 2). The engine has
no addressable memory (R40), no program counter (R31) and no saved exception registers (R166), so
State holds none. The constant ROMs are not state (R183).
-/

namespace Sys2Proof.Machine

/-- `ST`, the two states of the finite-state machine (R22). -/
inductive Fsm where
  /-- IDLE = 0: a command may be accepted -/
  | idle
  /-- RUN = 1: one Feistel round is performed per edge -/
  | run
  deriving DecidableEq, Repr

/-- `DIR`, the direction register (R24). -/
inductive Direction where
  /-- 0: the encryption key order -/
  | encrypt
  /-- 1: the decryption key order -/
  | decrypt
  deriving DecidableEq, Repr

/-- `ERR`, the error codes (R161, R28). -/
inductive ErrCode where
  /-- 0: no rejection since the last accepted command, or since reset -/
  | none
  /-- 1: ENC or DEC in IDLE with `KEY_VALID = 0` (R162) -/
  | keyNotLoaded
  /-- 2: ENC, DEC or LOADKEY while `ST = RUN` (R163) -/
  | busy
  /-- 3: the reserved code `cmd = 11`, in any state (R164) -/
  | illegal
  deriving DecidableEq, Repr

/-- The engine has no trap, exception vector or handler (R160): nothing raises a fault, so the type
has no constructor (log 5). A rejected command is a next state with `ERR` written (R161). -/
inductive Fault : Type where
  deriving DecidableEq, Repr

/-- Why a step has no meaning. -/
inductive Refusal where
  /-- An instruction with no meaning yet. Raised by no arm of `exec`: every row has its meaning.
  Safe: the model stops where the hardware goes on. -/
  | notModelled (mnemonic : String)
  /-- An edge without reset before the first reset edge: R182 gives it no meaning. Raised by every
  meaning and by an edge without a command, in a state marked "unreset". Safe: no claim can be
  proved about an engine that was never reset. -/
  | neverReset
  deriving DecidableEq, Repr

/-- The engine's state (spec/10_state.md section 1). -/
structure State where
  /-- `KEY[0..7]`, the key register file (R20, R43) -/
  key : Vector Word 8
  /-- `KEY_VALID`: `KEY` holds a key loaded since the last reset (R21) -/
  keyValid : Bool
  /-- `ST` (R22) -/
  st : Fsm
  /-- `RC`, the index of the round the next RUN edge performs (R23) -/
  rc : BitVec 5
  /-- `DIR` (R24) -/
  dir : Direction
  /-- `L`, the Left half of the block in flight (R25) -/
  left : Word
  /-- `R`, the Right half of the block in flight (R25) -/
  right : Word
  /-- `DOUT`, the result register (R26) -/
  dout : Block
  /-- `DONE`: `DOUT` holds the result of the latest accepted ENC or DEC (R27) -/
  done : Bool
  /-- `ERR` (R28) -/
  err : ErrCode
  /-- the mark "unreset": no reset edge has come since power-up (R182) -/
  unreset : Bool
  /-- MODEL'S OWN: the samples of the input ports at the coming edges, the next one first (log 2) -/
  inputs : List EdgeInput
  deriving DecidableEq, Repr

/-- The machine right after a reset edge, every register at its reset value (R180). No sample waits
on the input ports (log 2). -/
def State.reset : State :=
  { key := #v[0, 0, 0, 0, 0, 0, 0, 0]
    keyValid := false
    st := .idle
    rc := 0
    dir := .encrypt
    left := 0
    right := 0
    dout := 0
    done := false
    err := .none
    unreset := false
    inputs := [] }

/-- The machine after power-up and before its first reset edge, with the register values `r`, which
the spec leaves unspecified (R182; log 3). -/
def State.powerUp (r : State) : State := { r with unreset := true }

end Sys2Proof.Machine
end

