-- ==== Sys2Proof/Machine/Ops.lean ====
section
/-!
DEFINITION. The named operations: bits and bytes (spec/00_scope.md R9 to R11), the key register file,
and the writes of registers that several rules share, the rejection of a command (the engine's one
form of an exception, spec/60_exceptions.md R160, R166) and the clearing of its code among them.
-/

namespace Sys2Proof.Machine

/-! ### Bits and bytes -/

/-- `add32(a, b) = (a + b) mod 2^32`, no overflow signal (R11, R91). -/
def add32 (a b : Word) : Word := BitVec.ofNat 32 (a.toNat + b.toNat)

/-- `rotl8(x, n)`, a rotation inside 8 bits (R11). -/
def rotl8 (x : Byte) (n : Nat) : Byte :=
  if n % 8 = 0 then x else (x <<< (n % 8)) ||| (x >>> (8 - n % 8))

/-- `be32(b0, b1, b2, b3)`: four bytes as a big-endian word, byte 0 most significant (R10). -/
def be32 (b0 b1 b2 b3 : Byte) : Word := b0 ++ b1 ++ b2 ++ b3

/-- Byte `i` of a word, bits `[31-8i : 24-8i]` (R10, R44). -/
def wordByte (w : Word) (i : Fin 4) : Byte := w.extractLsb' (24 - 8 * i.val) 8

/-- The high nibble `[7:4]` of a byte (R47, R92). -/
def highNibble (b : Byte) : Nibble := b.extractLsb' 4 4

/-- The low nibble `[3:0]` of a byte (R47, R92). -/
def lowNibble (b : Byte) : Nibble := b.extractLsb' 0 4

/-! ### Registers -/

/-- Read `KEY[i]` (R43). -/
def readKey (s : State) (i : Fin 8) : Word := s.key[i]

/-- Write all eight entries of `KEY` and set `KEY_VALID` (R20, R21, R132). There is no write of a
single entry (R43). -/
def writeKey (k : Vector Word 8) (s : State) : State := { s with key := k, keyValid := true }

/-- Latch a block and start its first round (R130, R131): `L`, `R`, `DIR`, `RC`, `ST`, `DONE`. -/
def latchBlock (d : Direction) (l r : Word) (s : State) : State :=
  { s with left := l, right := r, dir := d, rc := 0, st := .run, done := false }

/-- The writes of a RUN edge that is not the completion edge (R134). -/
def advanceRound (p : Word × Word) (s : State) : State :=
  { s with left := p.1, right := p.2, rc := s.rc + 1 }

/-- The writes of the completion edge (R135). `ERR` is not among them. -/
def completeBlock (p : Word × Word) (s : State) : State :=
  { s with left := p.1, right := p.2, st := .idle, rc := 0, dout := p.1 ++ p.2, done := true }

/-! ### Rejection, acceptance, reset -/

/-- `reject(code)`: `ERR <- code` and no other write (R161). It saves nothing, changes no mode and
leaves control where it was (R166): this is the whole of taking an error. -/
def reject (code : ErrCode) (s : State) : State := { s with err := code }

/-- What an accepted command does to `ERR`: it writes NONE (R28). There is no return instruction;
this and reset are the only ways back (R167). -/
def clearError (s : State) : State := { s with err := .none }

/-- A reset edge: every register takes its reset value, whatever the state (R180). What the host will
present at later edges is no register and stays (log 2). -/
def resetEdge (s : State) : State := { State.reset with inputs := s.inputs }

/-- An edge with `rst = 0`: the state after it is `f s`, but before the first reset edge it has no
meaning (R182). -/
def clocked (f : State → State) (s : State) : Host.Outcome State Fault Refusal :=
  if s.unreset then .refused .neverReset else .next (f s)

end Sys2Proof.Machine
end

