-- ==== Sys2Proof/Machine/Operands.lean ====
section
/-!
DEFINITION. The operands of the commands, assembled from the ports with no extension, scaling or
shifting (spec/30_encoding.md R62, R63), and the bytes of a block and of a key on their ports
(spec/20_memory.md R45, R46).
-/

namespace Sys2Proof.Machine

/-- `block_in[63:32]`, the Left half, block bytes 0 to 3 (R45, R62). -/
def leftHalf (b : Block) : Word := b.extractLsb' 32 32

/-- `block_in[31:0]`, the Right half, block bytes 4 to 7 (R45, R62). -/
def rightHalf (b : Block) : Word := b.extractLsb' 0 32

/-- `key_in[255-32i : 224-32i]`, fragment Ki (R46, R63, R120). -/
def keyFragment (k : KeyBits) (i : Fin 8) : Word := k.extractLsb' (224 - 32 * i.val) 32

/-- The eight fragments of the key operand of LOADKEY (R63). -/
def keyFragments (k : KeyBits) : Vector Word 8 :=
  #v[keyFragment k 0, keyFragment k 1, keyFragment k 2, keyFragment k 3,
     keyFragment k 4, keyFragment k 5, keyFragment k 6, keyFragment k 7]

/-- Block byte `j`, `block[63-8j : 56-8j]` (R45). -/
def blockByte (b : Block) (j : Fin 8) : Byte := b.extractLsb' (56 - 8 * j.val) 8

/-- Key byte `j`, `key_in[255-8j : 248-8j]` (R46). -/
def keyByte (k : KeyBits) (j : Fin 32) : Byte := k.extractLsb' (248 - 8 * j.val) 8

/-- The bytes of a block, byte 0 first (R45, R150). -/
def blockBytes (b : Block) : List Byte :=
  [blockByte b 0, blockByte b 1, blockByte b 2, blockByte b 3,
   blockByte b 4, blockByte b 5, blockByte b 6, blockByte b 7]

/-- Eight bytes as a block, byte 0 in bits 63:56 (R45, R150). -/
def packBlock (b0 b1 b2 b3 b4 b5 b6 b7 : Byte) : Block :=
  b0 ++ b1 ++ b2 ++ b3 ++ b4 ++ b5 ++ b6 ++ b7

/-- A string of bytes as the key port carries it, byte 0 most significant (R46). -/
def packKey (bytes : List Byte) : KeyBits :=
  bytes.foldl (fun acc b => (acc <<< 8) ||| b.setWidth 256) 0

end Sys2Proof.Machine
end

