-- ==== Sys2Proof/Machine/Cipher.lean ====
section
/-!
DEFINITION. The engine's datapath: the substitution lookup (spec/40_sbox.md), the round-mixing unit
(spec/41_round_mix.md), the Feistel round (spec/42_feistel_round.md), the key-schedule ROM
(spec/43_key_schedule.md) and the block transform as a function (spec/44_block_commands.md R137). Each
takes the substitution table as an argument (R7), raises nothing and writes no flag (R160, R169).
-/

namespace Sys2Proof.Machine

/-! ### SBOXLOOKUP -/

/-- `sboxlookup(r, n) = SBOX[r][n]` (R80); the entry is a 4-bit value (R81). -/
def sboxLookup (sbox : SBoxTable) (r : Fin 8) (n : Nibble) : Nibble := BitVec.ofFin (sbox r n.toFin)

/-! ### MIX -/

/-- The row of the high nibble of byte `i`: row `i` (R93). -/
def highRow (i : Fin 4) : Fin 8 := ⟨i.val, by omega⟩

/-- The row of the low nibble of byte `i`: row `i + 1`, the adjacent one (R93). -/
def lowRow (i : Fin 4) : Fin 8 := ⟨i.val + 1, by omega⟩

/-- Step 3 for byte `i`: two adjacent rows, the high result in the upper four bits (R93). -/
def substituteByte (sbox : SBoxTable) (i : Fin 4) (b : Byte) : Byte :=
  sboxLookup sbox (highRow i) (highNibble b) ++ sboxLookup sbox (lowRow i) (lowNibble b)

/-- Steps 2 to 4 for byte `i` of the sum: split, substitute, rotate (R92, R93, R94). -/
def mixByte (sbox : SBoxTable) (s : Word) (i : Fin 4) : Byte :=
  rotl8 (substituteByte sbox i (wordByte s i)) Config.rotAmount

/-- MIX, the round-mixing function `F(H, K)` (R90, R95). -/
def mix (sbox : SBoxTable) (h k : Word) : Word :=
  let s := add32 h k
  be32 (mixByte sbox s 0) (mixByte sbox s 1) (mixByte sbox s 2) (mixByte sbox s 3)

/-! ### ROUND -/

/-- ROUND: one Feistel round; the terminal round does not swap (R110, R111). -/
def feistelRound (sbox : SBoxTable) (l r k : Word) (terminal : Bool) : Word × Word :=
  let newLeft := l ^^^ mix sbox r k
  if terminal then (newLeft, r) else (r, newLeft)

/-! ### KSEL -/

/-- `DIR` as the bit that addresses the ROM: 0 encrypt, 1 decrypt (R24, R42). -/
def Direction.bit : Direction → BitVec 1
  | .encrypt => 0
  | .decrypt => 1

/-- The encryption order: K0..K7 three times, then K7..K0 (R121). -/
def encryptionOrder : Vector (Fin 8) 32 :=
  #v[0, 1, 2, 3, 4, 5, 6, 7, 0, 1, 2, 3, 4, 5, 6, 7,
     0, 1, 2, 3, 4, 5, 6, 7, 7, 6, 5, 4, 3, 2, 1, 0]

/-- The decryption order: K0..K7, then K7..K0 three times (R122). -/
def decryptionOrder : Vector (Fin 8) 32 :=
  #v[0, 1, 2, 3, 4, 5, 6, 7, 7, 6, 5, 4, 3, 2, 1, 0,
     7, 6, 5, 4, 3, 2, 1, 0, 7, 6, 5, 4, 3, 2, 1, 0]

/-- The key-schedule ROM, 64 entries of a 3-bit fragment index (R42, R127). -/
def ksRom : Vector (Fin 8) 64 := encryptionOrder ++ decryptionOrder

/-- `KS(d, rc)`, the ROM read at the address `d ‖ rc` (R124). -/
def ks (d : Direction) (rc : BitVec 5) : Fin 8 := ksRom[(d.bit ++ rc).toFin]

/-- KSEL: the fragment `KEY[KS(d, rc)]` (R124). -/
def ksel (key : Vector Word 8) (d : Direction) (rc : BitVec 5) : Word := key[ks d rc]

/-! ### The block transform -/

/-- Round `rc` of a block: its fragment, and the terminal flag `rc = 31` (R112, R134, R137). -/
def blockRound (sbox : SBoxTable) (d : Direction) (key : Vector Word 8) (rc : BitVec 5)
    (p : Word × Word) : Word × Word :=
  feistelRound sbox p.1 p.2 (ksel key d rc) (rc == Config.terminalRound)

/-- The halves after the rounds 0 to `n - 1` (R137). -/
def roundsFrom (sbox : SBoxTable) (d : Direction) (key : Vector Word 8) (p : Word × Word) :
    Nat → Word × Word
  | 0 => p
  | n + 1 => blockRound sbox d key (BitVec.ofNat 5 n) (roundsFrom sbox d key p n)

/-- `Block(d, B, K)`: all 32 rounds on the halves of `B` (R137). -/
def blockTransform (sbox : SBoxTable) (d : Direction) (b : Block) (key : Vector Word 8) : Block :=
  let p := roundsFrom sbox d key (leftHalf b, rightHalf b) Config.rounds
  p.1 ++ p.2

/-- `EncryptBlock(B, K) = Block(0, B, K)` (R137). -/
def encryptBlock (sbox : SBoxTable) (b : Block) (key : Vector Word 8) : Block :=
  blockTransform sbox .encrypt b key

/-- `DecryptBlock(B, K) = Block(1, B, K)` (R137). -/
def decryptBlock (sbox : SBoxTable) (b : Block) (key : Vector Word 8) : Block :=
  blockTransform sbox .decrypt b key

end Sys2Proof.Machine
end

