-- ==== Sys2Proof/Machine/Fsm.lean ====
section
/-!
DEFINITION. The round FSM (spec/44_block_commands.md R133 to R135): what an edge with `rst = 0` does
on its own, before any command of that edge is looked at. The substitution table is an argument (R7).
-/

namespace Sys2Proof.Machine

/-- A RUN edge performs round `RC`; the one at `RC = 31` is the completion edge (R134, R135). -/
def runEdge (sbox : SBoxTable) (s : State) : State :=
  let p := blockRound sbox s.dir s.key s.rc (s.left, s.right)
  if s.rc = Config.terminalRound then completeBlock p s else advanceRound p s

/-- What the state requires at an edge: a round in RUN, nothing in IDLE (R66, R133, R134). -/
def stateEdge (sbox : SBoxTable) (s : State) : State :=
  match s.st with
  | .idle => s
  | .run => runEdge sbox s

/-- An edge with `rst = 0` and `cmd_valid = 0`: no command, and no `ERR` written (R66). -/
def noCommandEdge (sbox : SBoxTable) (s : State) : Host.Outcome State Fault Refusal :=
  clocked (stateEdge sbox) s

/-- A command that is rejected at an edge: the edge does what it would do without the command, and
`ERR` takes the code (R163, R164, R166). -/
def rejectedEdge (sbox : SBoxTable) (code : ErrCode) (s : State) : State :=
  reject code (stateEdge sbox s)

end Sys2Proof.Machine
end

