-- ==== Sys2Proof/Machine/BlockCommands.lean ====
section
/-!
DEFINITION. ENC and DEC (spec/44_block_commands.md R130, R131): each is the whole edge at which the
command is presented with `rst = 0`. The `…With` form takes the substitution table (R7); the meaning
is that form at the engine's own table.
-/

namespace Sys2Proof.Machine

/-- The edge of a block command: BUSY in RUN (R163), KEY_NOT_LOADED without a key (R162), else the
block is latched and `ERR` cleared (R130). -/
def blockCommandEdge (sbox : SBoxTable) (d : Direction) (block : Block) (s : State) : State :=
  match s.st with
  | .run => rejectedEdge sbox .busy s
  | .idle =>
    if s.keyValid then clearError (latchBlock d (leftHalf block) (rightHalf block) s)
    else rejectedEdge sbox .keyNotLoaded s

/-- ENC under the table `sbox` (R130). -/
def execEncWith (sbox : SBoxTable) (block : Block) (s : State) : Host.Outcome State Fault Refusal :=
  clocked (blockCommandEdge sbox .encrypt block) s

/-- DEC under the table `sbox` (R131). -/
def execDecWith (sbox : SBoxTable) (block : Block) (s : State) : Host.Outcome State Fault Refusal :=
  clocked (blockCommandEdge sbox .decrypt block) s

/-- ENC (R130). -/
def execEnc (block : Block) (s : State) : Host.Outcome State Fault Refusal :=
  execEncWith Config.sbox block s

/-- DEC (R131). -/
def execDec (block : Block) (s : State) : Host.Outcome State Fault Refusal :=
  execDecWith Config.sbox block s

end Sys2Proof.Machine
end

