-- ==== Sys2Proof/Machine/KeyCommands.lean ====
section
/-!
DEFINITION. LOADKEY (spec/44_block_commands.md R132), the whole edge at which it is presented with
`rst = 0`.
-/

namespace Sys2Proof.Machine

/-- The edge of LOADKEY: BUSY in RUN (R163), else the whole key is written, whether or not one was
loaded before, and `ERR` cleared (R132). -/
def loadkeyEdge (sbox : SBoxTable) (k : KeyBits) (s : State) : State :=
  match s.st with
  | .run => rejectedEdge sbox .busy s
  | .idle => clearError (writeKey (keyFragments k) s)

/-- LOADKEY under the table `sbox` (R132); the table only matters to the round of a RUN edge. -/
def execLoadkeyWith (sbox : SBoxTable) (k : KeyBits) (s : State) :
    Host.Outcome State Fault Refusal :=
  clocked (loadkeyEdge sbox k) s

/-- LOADKEY (R132). -/
def execLoadkey (k : KeyBits) (s : State) : Host.Outcome State Fault Refusal :=
  execLoadkeyWith Config.sbox k s

end Sys2Proof.Machine
end

