-- ==== Sys2Proof/Machine/ReservedCommand.lean ====
section
/-!
DEFINITION. The reserved code `cmd = 11` (spec/60_exceptions.md R164): rejected with ILLEGAL in every
state, the whole edge at which it is presented with `rst = 0`.
-/

namespace Sys2Proof.Machine

/-- The reserved code under the table `sbox` (R164, R65). -/
def execIllegalWith (sbox : SBoxTable) (s : State) : Host.Outcome State Fault Refusal :=
  clocked (rejectedEdge sbox .illegal) s

/-- The reserved code (R164, R65). -/
def execIllegal (s : State) : Host.Outcome State Fault Refusal := execIllegalWith Config.sbox s

end Sys2Proof.Machine
end

