-- ==== Sys2Proof/Machine/Dispatch.lean ====
section
/-!
DEFINITION. One arm for each command: the edge at which it is presented with `rst = 0`.
-/

namespace Sys2Proof.Machine

def exec (i : Instr) (s : State) : Host.Outcome State Fault Refusal :=
  match i with
  | .enc block => Sys2Proof.Machine.execEnc block s
  | .dec block => Sys2Proof.Machine.execDec block s
  | .loadkey key => Sys2Proof.Machine.execLoadkey key s
  | .illegal => Sys2Proof.Machine.execIllegal s

end Sys2Proof.Machine
end

