-- ==== Sys2Proof/WellFormed.lean ====
section
/-!
DEFINITION. Which commands and which edges a host may write down. The operands have the width of
their ports by their type (R60), so no command is ill-formed; the one form rule the spec gives about
an edge is that `cmd_valid = 0` on a reset edge (spec/30_encoding.md R69). The rule binds scripts: the
machine itself takes any sample (R180).
-/

namespace Sys2Proof

/-- Every command is well-formed: ENC and DEC take any 64-bit block (R62), LOADKEY any 256-bit key
(R63; V-KEY-3 of spec/95_test_vectors.md: no weak-key check), the reserved code has no operand (R64). -/
def Instr.wellFormed : Instr → Bool
  | .enc _ => true
  | .dec _ => true
  | .loadkey _ => true
  | .illegal => true

/-- An edge of a host script: no command stands on a reset edge (R69). -/
def EdgeInput.wellFormed (e : EdgeInput) : Bool := !(e.rst && e.cmdValid)

end Sys2Proof
end

