-- ==== Sys2Proof/Decode.lean ====
section
/-!
DEFINITION. The command decoder and the encoder (spec/30_encoding.md R61 to R66). The decoder is
total on every sample of the input ports and rejects by name; it needs only the three bits
`{cmd_valid, cmd[1:0]}` (R61). The encoder after it is written from the command map of R64.
-/

namespace Sys2Proof

/-- Why a sample or a table word is no command. -/
inductive DecodeReject where
  /-- `cmd_valid = 0`: the edge carries no command and is no instruction (R66) -/
  | noCommand
  /-- a table word with a bit above bit 2: the one command format is 3 bits wide (R61) -/
  | wordTooWide
  deriving DecidableEq, Repr

/-- The decoder's answer. -/
inductive Decoded where
  /-- the sample is this command -/
  | instr (i : Instr)
  /-- the sample is no command, for this reason -/
  | reject (why : DecodeReject)
  deriving DecidableEq, Repr

/-- The command map (R64): `cmd` selects the command, its operand comes from the port of that
command, sampled at the same edge (R61, R62, R63). -/
def decode (e : EdgeInput) : Decoded :=
  if e.cmdValid then
    if e.cmd = 0b00#2 then .instr (.enc e.blockIn)
    else if e.cmd = 0b01#2 then .instr (.dec e.blockIn)
    else if e.cmd = 0b10#2 then .instr (.loadkey e.keyIn)
    else .instr .illegal
  else .reject .noCommand

/-- The command the decoder reads, if the sample carries one. -/
def Decoded.toOption : Decoded → Option Instr
  | .instr i => some i
  | .reject _ => none

/-- `{cmd_valid, cmd[1:0]}` as one 3-bit value, `cmd_valid` in bit 2 (R61). -/
def cmd3 (e : EdgeInput) : BitVec 3 := BitVec.ofBool e.cmdValid ++ e.cmd

/-- The sample whose `{cmd_valid, cmd[1:0]}` is `w`, with `rst = 0` and operand ports of zeros. -/
def sampleOfCmd3 (w : BitVec 3) : EdgeInput :=
  { rst := false, cmdValid := w.getLsbD 2, cmd := w.extractLsb' 0 2, blockIn := 0, keyIn := 0 }

/-- The sample that a word of spec/opcode_table.json stands for: the word's low `nbits` bits, every
bit above the 3-bit format zero (R61; log 6). `none` for a word wider than the format. -/
def tableSample (nbits w : Nat) : Option EdgeInput :=
  if w % 2 ^ nbits < 8 then some (sampleOfCmd3 (BitVec.ofNat 3 (w % 2 ^ nbits))) else none

/-- `decode` on a word of spec/opcode_table.json, rejecting by name. -/
def decodeWord (nbits w : Nat) : Decoded :=
  match tableSample nbits w with
  | some e => decode e
  | none => .reject .wordTooWide

/-- The command the decoder reads from a word numbered as spec/opcode_table.json numbers it: bit 2 is
`cmd_valid`, bits 1 and 0 are `cmd`; the operand ports are zeros. -/
def decodeTableWord (nbits w : Nat) : Option Instr := (decodeWord nbits w).toOption

/-- The 3-bit word of a command, from the command map (R64). -/
def encodeCmd3 : Instr → BitVec 3
  | .enc _ => 0b100#3
  | .dec _ => 0b101#3
  | .loadkey _ => 0b110#3
  | .illegal => 0b111#3

/-- The operand a command puts on `block_in`; zeros on a port the command ignores (log 7). -/
def Instr.blockOperand : Instr → Block
  | .enc b => b
  | .dec b => b
  | .loadkey _ => 0
  | .illegal => 0

/-- The operand a command puts on `key_in`; zeros on a port the command ignores (log 7). -/
def Instr.keyOperand : Instr → KeyBits
  | .enc _ => 0
  | .dec _ => 0
  | .loadkey k => k
  | .illegal => 0

/-- The edge at which a host presents a command: its word of R64 and its operand of R62 or R63, with
`rst = 0` (R69). -/
def encode (i : Instr) : EdgeInput :=
  { sampleOfCmd3 (encodeCmd3 i) with blockIn := i.blockOperand, keyIn := i.keyOperand }

end Sys2Proof
end

