-- ==== Sys2Proof/Machine/Edge.lean ====
section
/-!
DEFINITION. One rising edge of `clk`: the sample of the input ports that State holds for it, and the
priority of spec/44_block_commands.md R136, reset before everything, then the command or its absence.
-/

namespace Sys2Proof.Machine

/-- The sample of the input ports at the next edge; `rst = 0` and `cmd_valid = 0` once the list has
ended (log 2). -/
def nextSample (s : State) : EdgeInput := s.inputs.headD EdgeInput.idle

/-- The state with the sample of this edge taken off the list; no register changes. -/
def dropSample (s : State) : State := { s with inputs := s.inputs.tail }

/-- The state whose ports will show `e` at the next edge, in place of what they would have shown. -/
def presentNext (e : EdgeInput) (s : State) : State := { s with inputs := e :: s.inputs.tail }

/-- One edge with the sample `e`: reset wins and no command is examined (R180, R165); else the decoded
command runs, or, without one, the edge does what the state requires (R66). `run` gives the commands
their meaning. -/
def edgeBy (run : Instr → State → Host.Outcome State Fault Refusal)
    (idle : State → Host.Outcome State Fault Refusal) (e : EdgeInput) (s : State) :
    Host.Outcome State Fault Refusal :=
  if e.rst then .next (resetEdge s)
  else match decode e with
    | .instr i => run i s
    | .reject _ => idle s

end Sys2Proof.Machine
end

