-- ==== Sys2Proof/Machine/Step.lean ====
section
/-!
DEFINITION. One step of the machine: one rising edge of `clk` (spec/00_scope.md R13,
spec/44_block_commands.md R136), with the sample that State holds for it.
-/

namespace Sys2Proof.Machine

/-- One edge with the sample `e` on the ports, in the engine with its own table (R136). -/
def clockEdge (e : EdgeInput) (s : State) : Host.Outcome State Fault Refusal :=
  edgeBy exec (noCommandEdge Config.sbox) e s

/-- One step: the next sample is taken and the edge performed. -/
def step (s : State) : Host.Outcome State Fault Refusal := clockEdge (nextSample s) (dropSample s)

/-- The state at whose next edge the ports show the table word `w` of `nbits` bits as a command, with
operand ports of zeros (log 6). A word that is wider than the format is no sample of the ports. -/
def State.withFetchWord (s : State) (nbits w : Nat) : State :=
  match tableSample nbits w with
  | some e => presentNext e s
  | none => s

end Sys2Proof.Machine
end

