-- ==== Sys2Proof/Machine/Flags.lean ====
section
/-!
DEFINITION. The output ports, functions of the state only (spec/00_scope.md R13): `status[4:0]`
(spec/10_state.md R29) and `block_out` (spec/30_encoding.md R60). The engine has no condition codes
(R32); these are its only flags. Reading a port changes nothing (R49).
-/

namespace Sys2Proof.Machine

/-- The code of `ERR` as its two bits (R161). -/
def ErrCode.code : ErrCode → BitVec 2
  | .none => 0
  | .keyNotLoaded => 1
  | .busy => 2
  | .illegal => 3

/-- BUSY: 1 while `ST` = RUN (R29). -/
def busy (s : State) : Bool := s.st == .run

/-- `status[4:0] = {ERR, KEY_VALID, DONE, ST = RUN}` (R29, R136). -/
def status (s : State) : BitVec 5 :=
  s.err.code ++ BitVec.ofBool s.keyValid ++ BitVec.ofBool s.done ++ BitVec.ofBool (busy s)

/-- `block_out`, always equal to `DOUT` (R26, R60). -/
def blockOut (s : State) : Block := s.dout

end Sys2Proof.Machine
end

