-- ==== Sys2Proof/Machine/Parametric.lean ====
section
/-!
DEFINITION. The same machine with the substitution table as an argument, as spec/00_scope.md R7 and
spec/40_sbox.md R82 ask ("A model takes `SBOX` as a parameter of the machine"). At the engine's own
table it is the machine of Machine/Step.lean. Claims over every table, and the vectors of
spec/95_test_vectors.md under its test tables, are stated with it.
-/

namespace Sys2Proof.Machine

/-- One outcome, then the next operation on its state; a fault or a refusal stops the run. -/
def andThen {σ τ : Type} (o : Host.Outcome σ Fault Refusal) (f : σ → Host.Outcome τ Fault Refusal) :
    Host.Outcome τ Fault Refusal :=
  match o with
  | .next s => f s
  | .fault r => .fault r
  | .refused r => .refused r

/-- `exec` under the table `sbox`. -/
def execWith (sbox : SBoxTable) (i : Instr) (s : State) : Host.Outcome State Fault Refusal :=
  match i with
  | .enc block => execEncWith sbox block s
  | .dec block => execDecWith sbox block s
  | .loadkey key => execLoadkeyWith sbox key s
  | .illegal => execIllegalWith sbox s

/-- The state after the edge at which `i` is presented with `rst = 0`, in an engine that has been reset:
what the command's meaning does (R130 to R132, R164). -/
def commandEdge (sbox : SBoxTable) (i : Instr) (s : State) : State :=
  match i with
  | .enc block => blockCommandEdge sbox .encrypt block s
  | .dec block => blockCommandEdge sbox .decrypt block s
  | .loadkey key => loadkeyEdge sbox key s
  | .illegal => rejectedEdge sbox .illegal s

/-- One edge with the sample `e` under the table `sbox` (R136). -/
def clockEdgeWith (sbox : SBoxTable) (e : EdgeInput) (s : State) : Host.Outcome State Fault Refusal :=
  edgeBy (execWith sbox) (noCommandEdge sbox) e s

/-- `step` under the table `sbox`. -/
def stepWith (sbox : SBoxTable) (s : State) : Host.Outcome State Fault Refusal :=
  clockEdgeWith sbox (nextSample s) (dropSample s)

/-- The edges with these samples, in order; the host sees their effects in that order (R50). -/
def runEdges (sbox : SBoxTable) : List EdgeInput → State → Host.Outcome State Fault Refusal
  | [], s => .next s
  | e :: es, s => andThen (clockEdgeWith sbox e s) (runEdges sbox es)

end Sys2Proof.Machine
end

