-- ==== Sys2Proof/Machine/Script.lean ====
section
/-!
DEFINITION. Host scripts (spec/30_encoding.md R69, R70): the statements, their edges, the
pseudo-statements with their expansions, and a run of a script on an engine. They are the spec's way
of writing down what a host presents, no part of the hardware (spec/92_eei_decisions.md D25).
-/

namespace Sys2Proof.Machine

/-- A statement of a host script (R69). An operand is its hex digits, the first one first. -/
inductive Stmt where
  /-- `RESET` -/
  | reset
  /-- `LOADKEY k`, 64 hex digits, key byte 0 first -/
  | loadkey (k : List Nibble)
  /-- `ENC b`, 16 hex digits, block byte 0 first -/
  | enc (b : List Nibble)
  /-- `DEC b` -/
  | dec (b : List Nibble)
  /-- `CMD3`, the reserved code -/
  | cmd3
  deriving DecidableEq, Repr

/-- A statement's operand has the number of digits its port needs (R69). -/
def Stmt.wellFormed : Stmt → Bool
  | .reset => true
  | .loadkey k => k.length == 64
  | .enc b => b.length == 16
  | .dec b => b.length == 16
  | .cmd3 => true

/-- Hex digits read as one big number of `n` bits (R69). -/
def hexValue (n : Nat) (digits : List Nibble) : BitVec n :=
  digits.foldl (fun acc d => (acc <<< 4) ||| d.setWidth n) 0

/-- The edge a statement stands for (R69). -/
def Stmt.edge : Stmt → EdgeInput
  | .reset => EdgeInput.reset
  | .loadkey k => encode (.loadkey (hexValue 256 k))
  | .enc b => encode (.enc (hexValue 64 b))
  | .dec b => encode (.dec (hexValue 64 b))
  | .cmd3 => encode .illegal

/-- What a host does next: present a sample at an edge, wait, or read the output ports. -/
inductive HostAct where
  /-- one edge with this sample -/
  | edge (e : EdgeInput)
  /-- edges with `cmd_valid = 0` until BUSY = 0 (R70, `WAIT`) -/
  | wait
  /-- no edge; the output ports are sampled (R70, `READ`) -/
  | read
  deriving DecidableEq, Repr

/-- A line of a host script: a statement (R69) or a pseudo-statement (R70). -/
inductive Line where
  /-- a statement -/
  | stmt (s : Stmt)
  /-- `IDLE n` -/
  | idle (n : Nat)
  /-- `WAIT` -/
  | wait
  /-- `READ` -/
  | read
  /-- `ENCRYPT b` -/
  | encrypt (b : List Nibble)
  /-- `DECRYPT b` -/
  | decrypt (b : List Nibble)
  deriving DecidableEq, Repr

/-- The expansion of a line (R70). -/
def Line.acts : Line → List HostAct
  | .stmt s => [.edge s.edge]
  | .idle n => List.replicate n (.edge EdgeInput.idle)
  | .wait => [.wait]
  | .read => [.read]
  | .encrypt b => [.edge (Stmt.enc b).edge, .wait, .read]
  | .decrypt b => [.edge (Stmt.dec b).edge, .wait, .read]

/-- What `READ` samples (R70). -/
structure Reading where
  /-- `block_out` -/
  blockOut : Block
  /-- `status[4:0]` -/
  status : BitVec 5
  deriving DecidableEq, Repr

/-- The output ports after the previous edge (R70, R188). -/
def readPorts (s : State) : Reading := { blockOut := blockOut s, status := status s }

/-- Edges without a command until BUSY = 0, at most `n` of them; none if BUSY is 0 already (R70). -/
def waitAtMost (sbox : SBoxTable) : Nat → State → Host.Outcome State Fault Refusal
  | 0, s => .next s
  | n + 1, s =>
    if busy s then andThen (clockEdgeWith sbox EdgeInput.idle s) (waitAtMost sbox n) else .next s

/-- `WAIT` (R70). DEDUCED: 32 edges are enough from every state, since `RC` has 5 bits (R23, R141;
log 10). -/
def wait (sbox : SBoxTable) (s : State) : Host.Outcome State Fault Refusal :=
  waitAtMost sbox Config.rounds s

/-- A host's acts in order: the state after them and what the host has read, the first reading
first. -/
def runActs (sbox : SBoxTable) :
    List HostAct → State → Host.Outcome (State × List Reading) Fault Refusal
  | [], s => .next (s, [])
  | .edge e :: rest, s => andThen (clockEdgeWith sbox e s) (runActs sbox rest)
  | .wait :: rest, s => andThen (wait sbox s) (runActs sbox rest)
  | .read :: rest, s =>
    andThen (runActs sbox rest s) fun r => .next (r.1, readPorts s :: r.2)

/-- A host script on an engine in the state `s` (R69, R70). -/
def runScript (sbox : SBoxTable) (lines : List Line) (s : State) :
    Host.Outcome (State × List Reading) Fault Refusal :=
  runActs sbox (lines.flatMap Line.acts) s

end Sys2Proof.Machine
end

