-- ==== Sys2Proof/Machine/HostContract.lean ====
section
/-!
DEFINITION. The host contract (spec/44_block_commands.md R147 to R152): what a host does with the
engine to give the document's `Encrypt(buffer, key)` and `Decrypt(buffer, key)`. It is host software
around the engine (spec/00_scope.md R5 a), no part of the machine.
-/

namespace Sys2Proof.Machine

/-- The host's structured errors, both `InvalidLength` in the document (R152, R168). -/
inductive HostError where
  /-- `InvalidLength(actual_len)`: the buffer's length is not a multiple of 8 (R148) -/
  | invalidBufferLength (actual : Nat)
  /-- `InvalidLength`: the key is not exactly 32 bytes (R149) -/
  | invalidKeyLength
  deriving DecidableEq, Repr

/-- Consecutive chunks of 8 bytes, in order, as blocks (R150). -/
def blocksOf : List Byte → List Block
  | b0 :: b1 :: b2 :: b3 :: b4 :: b5 :: b6 :: b7 :: rest =>
    packBlock b0 b1 b2 b3 b4 b5 b6 b7 :: blocksOf rest
  | _ => []

/-- The block command of a direction (R64). -/
def blockCommand : Direction → Block → Instr
  | .encrypt, b => .enc b
  | .decrypt, b => .dec b

/-- The length checks (R148, R149). Which one comes first is open (N19; log 9). -/
def hostChecks (buffer key : List Byte) : Option HostError :=
  let bufferError :=
    if buffer.length % Config.blockBytes = 0 then none else some (.invalidBufferLength buffer.length)
  let keyError := if key.length = Config.keyBytes then none else some .invalidKeyLength
  if Config.hostChecksKeyFirst then keyError <|> bufferError else bufferError <|> keyError

/-- One block: the command, WAIT, READ (R147, R70). -/
def blockActs (d : Direction) (b : Block) : List HostAct :=
  [.edge (encode (blockCommand d b)), .wait, .read]

/-- A checked call: LOADKEY, then one block command for each chunk in order; an empty buffer gives no
command at all (R150; log 11). -/
def hostActs (d : Direction) (buffer key : List Byte) : List HostAct :=
  match blocksOf buffer with
  | [] => []
  | b :: bs => .edge (encode (.loadkey (packKey key))) :: (b :: bs).flatMap (blockActs d)

/-- The bytes a host takes from its readings: the 8 bytes of `block_out`, from bits 63:56 down
(R150). -/
def readingBytes (rs : List Reading) : List Byte := rs.flatMap fun r => blockBytes r.blockOut

/-- What a host call gives: a structured error and no edge at all (R148, R149, R152), or the engine's
run and the bytes returned to the caller. -/
inductive HostResult where
  /-- an error; no command was presented -/
  | failed (e : HostError)
  /-- the engine's outcome with the result bytes -/
  | ran (o : Host.Outcome (State × List Byte) Fault Refusal)
  deriving Repr

/-- `Encrypt(buffer, key)` or `Decrypt(buffer, key)` on an engine in the state `s` (R148 to R150). -/
def hostCrypt (sbox : SBoxTable) (d : Direction) (buffer key : List Byte) (s : State) : HostResult :=
  match hostChecks buffer key with
  | some e => .failed e
  | none =>
    .ran (andThen (runActs sbox (hostActs d buffer key) s) fun r => .next (r.1, readingBytes r.2))

end Sys2Proof.Machine
end

