-- ==== Sys2Proof/Machine/Instances.lean ====
section
/-!
DEFINITION. Several engine instances side by side (spec/20_memory.md R54): each has its own state and
its own ports, and they share nothing but the ROM contents. And the host that runs its chunks on
several engines and puts each result at its chunk's position (spec/44_block_commands.md R151; log 12).
-/

namespace Sys2Proof.Machine

/-- One edge of several engines: each takes its own sample (R54). -/
def fleetEdge (sbox : SBoxTable) (samples : List EdgeInput) (engines : List State) :
    List (Host.Outcome State Fault Refusal) :=
  List.zipWith (clockEdgeWith sbox) samples engines

/-- One chunk on one engine: LOADKEY, the block command, WAIT, and the block on `block_out`. -/
def runChunk (sbox : SBoxTable) (d : Direction) (key : KeyBits) (chunk : Block) (engine : State) :
    Host.Outcome Block Fault Refusal :=
  andThen (runActs sbox [.edge (encode (.loadkey key)), .edge (encode (blockCommand d chunk)), .wait]
    engine) fun r => .next (blockOut r.1)

/-- The chunks run in the order of the list of their positions, chunk `j` on the engine `engineOf j`;
each result is kept with its position. A position past the last chunk gives no work. -/
def runChunks (sbox : SBoxTable) (d : Direction) (key : KeyBits) (chunks : List Block)
    (engineOf : Nat → State) : List Nat → Host.Outcome (List (Nat × Block)) Fault Refusal
  | [] => .next []
  | j :: js =>
    match chunks[j]? with
    | none => runChunks sbox d key chunks engineOf js
    | some c =>
      andThen (runChunk sbox d key c (engineOf j)) fun r =>
        andThen (runChunks sbox d key chunks engineOf js) fun rs => .next ((j, r) :: rs)

/-- The results at the positions of their chunks, whatever the order they came in (R151); `none` if
one is missing. -/
def placeResults (n : Nat) (results : List (Nat × Block)) : List (Option Block) :=
  (List.range n).map fun j => results.lookup j

/-- The blocks of a buffer run in the order `order` on the engines `engineOf`, the results in chunk
order (R151). -/
def hostCryptParallel (sbox : SBoxTable) (d : Direction) (key : KeyBits) (chunks : List Block)
    (engineOf : Nat → State) (order : List Nat) :
    Host.Outcome (List (Option Block)) Fault Refusal :=
  andThen (runChunks sbox d key chunks engineOf order) fun rs =>
    .next (placeResults chunks.length rs)

end Sys2Proof.Machine
end

