-- ==== Sys2Proof/Machine/StepFunction.lean ====
section
/-!
DEFINITION. The per-edge step function of spec/44_block_commands.md R136 in one piece, line by line as
the rule writes it. It is the clear form: it calls none of the meanings, and Machine/Step.lean's edge
is claimed to equal it. The reading of R182 (no meaning before the first reset edge) is not in R136.
-/

namespace Sys2Proof.Machine

/-- `step(S, in)` of R136 under the table `sbox`. -/
def stepFunction (sbox : SBoxTable) (s : State) (e : EdgeInput) : State :=
  if e.rst then { State.reset with inputs := s.inputs }
  else if s.st = .run then
    let k := s.key[ks s.dir s.rc]
    let p := feistelRound sbox s.left s.right k (s.rc == 31)
    let s1 := { s with left := p.1, right := p.2 }
    let s2 :=
      if e.cmdValid then { s1 with err := if e.cmd = 0b11#2 then .illegal else .busy } else s1
    if s.rc = 31 then { s2 with st := .idle, rc := 0, dout := p.1 ++ p.2, done := true }
    else { s2 with rc := s.rc + 1 }
  else if e.cmdValid then
    if e.cmd = 0b11#2 then { s with err := .illegal }
    else if e.cmd = 0b10#2 then
      { s with
        key := Vector.ofFn fun i : Fin 8 => e.keyIn.extractLsb' (224 - 32 * i.val) 32
        keyValid := true
        err := .none }
    else if s.keyValid = false then { s with err := .keyNotLoaded }
    else
      { s with
        left := e.blockIn.extractLsb' 32 32
        right := e.blockIn.extractLsb' 0 32
        dir := if e.cmd.getLsbD 0 then .decrypt else .encrypt
        rc := 0
        st := .run
        done := false
        err := .none }
  else s

end Sys2Proof.Machine
end

