-- ==== Sys2Proof/Safety.lean ====
section
/-!
DEFINITION. The terms claims are stated in: the invariant of the engine's registers, what a host may
observe, what steers the engine, and an edge at which the host keeps its contract.
-/

namespace Sys2Proof

/-- The control part of a sample: everything but the operands. -/
def EdgeInput.controlPart (e : EdgeInput) : Bool × Bool × BitVec 2 := (e.rst, e.cmdValid, e.cmd)

end Sys2Proof

namespace Sys2Proof.Machine

/-- What every reachable state satisfies, and every step keeps. -/
structure State.Inv (s : State) : Prop where
  /-- outside RUN no round is counted (R23) -/
  idleRound : s.st = .idle → s.rc = 0
  /-- a block in flight has a key (R165) -/
  runKey : s.st = .run → s.keyValid = true
  /-- a block in flight has no result yet (R27) -/
  runNotDone : s.st = .run → s.done = false
  /-- without a loaded key `KEY` holds its reset value (R20, R21) -/
  noKey : s.keyValid = false → s.key = State.reset.key
  /-- the latest result is the final block, which `L` and `R` keep (R25, R26) -/
  doneResult : s.done = true → s.dout = s.left ++ s.right
  /-- a result needs a key (R21) -/
  doneKey : s.done = true → s.keyValid = true

/-- What a host can observe: the output ports (R33, R60). -/
def observe (s : State) : Block × BitVec 5 := (blockOut s, status s)

/-- What steers the engine and what the host sees of it without the data: `ST`, `RC`, `DIR`,
`KEY_VALID`, `DONE`, `ERR` and the mark of R182 (R146). -/
def controlPart (s : State) : Fsm × BitVec 5 × Direction × Bool × Bool × ErrCode × Bool :=
  (s.st, s.rc, s.dir, s.keyValid, s.done, s.err, s.unreset)

/-- A command the engine accepts in the state `s`: no rejection of R161 applies to it. -/
def accepts (i : Instr) (s : State) : Bool :=
  match i with
  | .enc _ => s.st == .idle && s.keyValid
  | .dec _ => s.st == .idle && s.keyValid
  | .loadkey _ => s.st == .idle
  | .illegal => false

/-- The host keeps its contract at this edge (R147): a reset edge keeps it in every state, the one after
power-up included; without reset no command is presented before the first reset edge (R182), and one is
presented only where it is accepted, after BUSY = 0 and with a key loaded (R185, R187; log 11). -/
def contractKept (e : EdgeInput) (s : State) : Bool :=
  e.rst || match decode e with
    | .instr i => !s.unreset && accepts i s
    | .reject _ => true

/-- The state the contract goes on from after an edge. An edge before the first reset has no meaning
(R182): the engine is still without a reset, and the contract asks nothing else of it there (log 11). -/
def afterEdge (e : EdgeInput) (s : State) : State :=
  match clockEdge e s with
  | .next t => t
  | .fault _ => s
  | .refused _ => s

/-- The host keeps its contract at each of the edges `es`, from the state `s` on (R147). -/
def hostKeepsContract : List EdgeInput → State → Prop
  | [], _ => True
  | e :: es, s => contractKept e s = true ∧ hostKeepsContract es (afterEdge e s)

/-- A run of edges over which the block in flight is left to finish: no reset (R184). -/
def noReset (es : List EdgeInput) : Prop := ∀ e ∈ es, e.rst = false

/-- The state after the edges with the samples `es`, as a run of the machine: the samples stand on the
ports first, and what follows them stays (log 2). -/
def runOn (es : List EdgeInput) (s : State) : Host.Outcome State Fault Refusal :=
  Host.Core.run Sys2Proof.core es.length ({ s with inputs := es ++ s.inputs } : State)

end Sys2Proof.Machine
end

