-- ==== Sys2Proof/Certificates/Slice0/Obligations.lean ====
section
/-!
DEFINITION. The statements for the provers, each with the rule of spec/ it formalises. "After a reset"
stands for the mark of R182 being off: every rule of the engine holds only then (R185).
-/

open Sys2Proof Sys2Proof.Machine

/-! ### Encoding and decoding -/

/-- R61, R64 and the opcode table: the decoder gives back every encoded command with its operand, and
a sample it reads as a command carries that command's 3-bit word and that command's operand on the
port of R62 or R63. -/
def Obligations.DecoderAndEncoderAgree : Prop :=
  (∀ i : Instr, i.wellFormed = true → decode (encode i) = .instr i ∧ (encode i).rst = false) ∧
  (∀ (e : EdgeInput) (i : Instr), decode e = .instr i →
    cmd3 e = encodeCmd3 i ∧
    (∀ b, i = .enc b ∨ i = .dec b → e.blockIn = b) ∧ (∀ k, i = .loadkey k → e.keyIn = k)) ∧
  (∀ e : EdgeInput, (∃ why, decode e = .reject why) ↔ (cmd3 e).getLsbD 2 = false)

/-- R64, R65, R66: what each row of the command map decodes to, with the operand of its port. -/
def Obligations.CommandMapRows : Prop :=
  ∀ (b : Block) (k : KeyBits) (rst : Bool),
    decode ⟨rst, true, 0b00, b, k⟩ = .instr (.enc b) ∧
    decode ⟨rst, true, 0b01, b, k⟩ = .instr (.dec b) ∧
    decode ⟨rst, true, 0b10, b, k⟩ = .instr (.loadkey k) ∧
    decode ⟨rst, true, 0b11, b, k⟩ = .instr .illegal ∧
    ∀ cmd, decode ⟨rst, false, cmd, b, k⟩ = .reject .noCommand

/-- The four words of spec/opcode_table.json, written out as it numbers them, and words that are none
of them. -/
def Obligations.TableWordsDecode : Prop :=
  decodeTableWord 8 0b100 = some (.enc 0) ∧ decodeTableWord 8 0b101 = some (.dec 0) ∧
  decodeTableWord 8 0b110 = some (.loadkey 0) ∧ decodeTableWord 8 0b111 = some .illegal ∧
  decodeTableWord 8 0b011 = none ∧ decodeTableWord 8 0b1100 = none

/-- A step runs the decoded command: the sample of this edge is taken off the ports and, with
`rst = 0`, the command it carries is executed (R13, R136). That State holds the coming samples is the
model's choice (log 2). Where `withFetchWord` puts a table word, the next step runs the command the
decoder reads from that word (log 6). -/
def Obligations.StepRunsTheDecodedCommand : Prop :=
  (∀ s : State, step s = clockEdge (nextSample s) { s with inputs := s.inputs.tail }) ∧
  (∀ (s : State) (e : EdgeInput) (rest : List EdgeInput) (i : Instr),
    s.inputs = e :: rest → e.rst = false → decode e = .instr i →
    step s = exec i { s with inputs := rest }) ∧
  (∀ (s : State) (nbits w : Nat) (i : Instr),
    decodeTableWord nbits w = some i →
    step (s.withFetchWord nbits w) = exec i { s with inputs := s.inputs.tail })

/-! ### Reset and the state before it -/

/-- R180, R181, R184: a reset edge gives every register its reset value, whatever the state, a block in
RUN included, and whatever the other ports hold; the outputs after it are zero. -/
def Obligations.ResetEdgeGivesResetValues : Prop :=
  ∀ (s : State) (e : EdgeInput), e.rst = true →
    ∃ t, clockEdge e s = .next t ∧
      t = { key := #v[0, 0, 0, 0, 0, 0, 0, 0], keyValid := false, st := .idle, rc := 0,
            dir := .encrypt, left := 0, right := 0, dout := 0, done := false, err := .none,
            unreset := false, inputs := t.inputs } ∧
      status t = 0b00000 ∧ blockOut t = 0

/-- R182: before the first reset edge every step other than a reset edge is refused, whatever values
the registers came up with, and so is every command. -/
def Obligations.UnresetEngineIsRefused : Prop :=
  ∀ r : State,
    (step (State.powerUp r) = .refused .neverReset ↔ (nextSample r).rst = false) ∧
    (∀ i : Instr, exec i (State.powerUp r) = .refused .neverReset) ∧
    (∀ t, step (State.powerUp r) = .next t → t.unreset = false)

/-- R34: the engine depends only on what was presented since a reset. Any two engines that take a reset
edge and then the same samples are in the same state, whatever state each was in before. -/
def Obligations.NothingBeforeAResetMatters : Prop :=
  ∀ (e : EdgeInput) (es : List EdgeInput) (s₁ s₂ : State), e.rst = true → s₁.inputs = s₂.inputs →
    runOn (e :: es) s₁ = runOn (e :: es) s₂ ∧ ∃ t, runOn (e :: es) s₁ = .next t

/-! ### The datapath -/

/-- R91: the modular addition wraps and its carry is dropped. -/
def Obligations.AdditionWraps : Prop :=
  ∀ h k : Word, (add32 h k).toNat = (h.toNat + k.toNat) % 2 ^ 32

/-- R10: `be32` puts byte 0 in the most significant place, and the bytes of a word are its inverse. -/
def Obligations.BigEndianBytes : Prop :=
  (∀ b0 b1 b2 b3 : Byte,
    (be32 b0 b1 b2 b3).toNat = b0.toNat * 2 ^ 24 + b1.toNat * 2 ^ 16 + b2.toNat * 2 ^ 8 + b3.toNat ∧
    wordByte (be32 b0 b1 b2 b3) 0 = b0 ∧ wordByte (be32 b0 b1 b2 b3) 1 = b1 ∧
    wordByte (be32 b0 b1 b2 b3) 2 = b2 ∧ wordByte (be32 b0 b1 b2 b3) 3 = b3) ∧
  (∀ w : Word, be32 (wordByte w 0) (wordByte w 1) (wordByte w 2) (wordByte w 3) = w) ∧
  (∀ (w : Word) (i : Fin 4), (wordByte w i).toNat = w.toNat / 2 ^ (24 - 8 * i.val) % 2 ^ 8)

/-- R94: rotating a byte left by 11 is rotating it by 3, `t[4:0] ‖ t[7:5]`. -/
def Obligations.RotationByElevenIsByThree : Prop :=
  ∀ t : Byte, rotl8 t 11 = rotl8 t 3 ∧ rotl8 t 11 = t.extractLsb' 0 5 ++ t.extractLsb' 5 3

/-- R100: the bit-level form of the round-mixing function, for every substitution table. -/
def Obligations.MixBitLevelForm : Prop :=
  ∀ (S : SBoxTable) (h k : Word) (i : Fin 4),
    (mix S h k).extractLsb' (24 - 8 * i.val) 8 =
      rotl8
        (BitVec.ofFin (S ⟨i.val, by omega⟩ ((h + k).extractLsb' (28 - 8 * i.val) 4).toFin) ++
          BitVec.ofFin (S ⟨i.val + 1, by omega⟩ ((h + k).extractLsb' (24 - 8 * i.val) 4).toFin) :
          BitVec (4 + 4)) 3

/-- R97: the corner cases (a) to (f) of the round-mixing function, for every substitution table. -/
def Obligations.MixCornerCases : Prop :=
  ∀ S : SBoxTable,
    (mix S 0xFFFFFFFF 0x00000001 = mix S 0 0 ∧ mix S 0x80000000 0x80000000 = mix S 0 0) ∧
    (add32 0x000000FF 0x00000001 = 0x00000100 ∧ wordByte 0x00000100 2 ≠ 0 ∧
      wordByte 0x00000100 3 = 0) ∧
    (∀ (h : Word) (i : Fin 4),
      wordByte (mix S h 0) i = rotl8 (substituteByte S i (wordByte h i)) 11) ∧
    (∀ h k c : Word, mix S h k = mix S (h + c) (k - c)) ∧
    (∀ (h k : Word) (i : Fin 4), add32 h k = 0 →
      wordByte (mix S h k) i =
        rotl8 (sboxLookup S ⟨i.val, by omega⟩ 0 ++ sboxLookup S ⟨i.val + 1, by omega⟩ 0) 3) ∧
    ((∀ x : Byte, rotl8 x 8 = x ∧ rotl8 x 16 = x ∧ rotl8 x 11 = rotl8 x 3) ∧
      ∃ x : Byte, rotl8 x 11 ≠ x)

/-- R96, R98: F depends on rows 0 to 4 of the table and on no other row, and on each of those five. -/
def Obligations.MixReadsRowsZeroToFour : Prop :=
  (∀ S S' : SBoxTable, (∀ (r : Fin 8) (n : Fin 16), r.val ≤ 4 → S r n = S' r n) →
    ∀ h k : Word, mix S h k = mix S' h k) ∧
  (∀ r : Fin 8, r.val ≤ 4 → ∃ (S S' : SBoxTable) (h k : Word),
    (∀ (q : Fin 8) (n : Fin 16), q ≠ r → S q n = S' q n) ∧ mix S h k ≠ mix S' h k)

/-- R98, R83: two engines whose tables agree on rows 0 to 4 take the same next state at every edge, so
no output shows rows 5 to 7. -/
def Obligations.EngineIgnoresRowsFiveToSeven : Prop :=
  ∀ S S' : SBoxTable, (∀ (r : Fin 8) (n : Fin 16), r.val ≤ 4 → S r n = S' r n) →
    ∀ (es : List EdgeInput) (s : State), runEdges S es s = runEdges S' es s

/-- R113: the corner cases (a) to (d) of the Feistel round, for every table; (e) is the type of the
round, which gives two halves and no flag. -/
def Obligations.RoundCornerCases : Prop :=
  ∀ (S : SBoxTable) (l r k : Word),
    ((feistelRound S l r k false).1 = r ∧ (feistelRound S l r k true).2 = r) ∧
    ((feistelRound S l r k true).1 = (feistelRound S l r k false).2 ∧
      ∀ i : Fin 4, wordByte (feistelRound S l r k true).1 i = wordByte l i ^^^ wordByte (mix S r k) i) ∧
    (l = mix S r k → feistelRound S l r k true = (0, r) ∧ feistelRound S l r k false = (r, 0)) ∧
    (mix S r k = 0 → feistelRound S l r k true = (l, r) ∧ feistelRound S l r k false = (r, l))

/-- R114: the terminal round is `tau_K`, a non-terminal round is `sigma` after `tau_K`, and both are
their own inverses, whatever the table. -/
def Obligations.RoundIsTwoInvolutions : Prop :=
  ∀ (S : SBoxTable) (k : Word),
    let tau : Word × Word → Word × Word := fun p => (p.1 ^^^ mix S p.2 k, p.2)
    let sigma : Word × Word → Word × Word := fun p => (p.2, p.1)
    ∀ p : Word × Word,
      feistelRound S p.1 p.2 k true = tau p ∧ feistelRound S p.1 p.2 k false = sigma (tau p) ∧
      tau (tau p) = p ∧ sigma (sigma p) = p

/-- R121, R122, R123, R125, R126: the two orders of the key-schedule ROM, as tables and in closed form.
The decryption order is the encryption order reversed; the only adjacent rounds with one fragment are 23
and 24 in encryption and 7 and 8 in decryption, fragment 7 both; each fragment is used four times a
block. -/
def Obligations.KeyScheduleRom : Prop :=
  (((List.range 32).map fun n => (ks .encrypt (BitVec.ofNat 5 n)).val) =
    [0, 1, 2, 3, 4, 5, 6, 7, 0, 1, 2, 3, 4, 5, 6, 7, 0, 1, 2, 3, 4, 5, 6, 7, 7, 6, 5, 4, 3, 2, 1, 0] ∧
   ((List.range 32).map fun n => (ks .decrypt (BitVec.ofNat 5 n)).val) =
    [0, 1, 2, 3, 4, 5, 6, 7, 7, 6, 5, 4, 3, 2, 1, 0, 7, 6, 5, 4, 3, 2, 1, 0, 7, 6, 5, 4, 3, 2, 1, 0]) ∧
  (∀ rc : BitVec 5,
    (ks .encrypt rc).val = (if rc.toNat ≤ 23 then rc.toNat % 8 else 31 - rc.toNat) ∧
    (ks .decrypt rc).val = (if rc.toNat ≤ 7 then rc.toNat else (31 - rc.toNat) % 8) ∧
    ks .decrypt rc = ks .encrypt (31 - rc)) ∧
  (∀ rc : BitVec 5, rc.toNat < 31 →
    (ks .encrypt rc = ks .encrypt (rc + 1) ↔ rc = 23) ∧
    (ks .decrypt rc = ks .decrypt (rc + 1) ↔ rc = 7)) ∧
  (ks .encrypt 23 = 7 ∧ ks .decrypt 7 = 7) ∧
  (∀ i : Fin 8,
    (((List.range 24).filter fun n => ks .encrypt (BitVec.ofNat 5 n) == i).length = 3 ∧
      ((List.range' 24 8).filter fun n => ks .encrypt (BitVec.ofNat 5 n) == i).length = 1) ∧
    (((List.range 8).filter fun n => ks .decrypt (BitVec.ofNat 5 n) == i).length = 1 ∧
      ((List.range' 8 24).filter fun n => ks .decrypt (BitVec.ofNat 5 n) == i).length = 3))

/-- R137: the block transform is the loop of the rule, 32 rounds with the fragment `K[KS(d, r)]`, the
round of index 31 terminal. -/
def Obligations.BlockTransformIsTheLoop : Prop :=
  ∀ (S : SBoxTable) (d : Direction) (b : Block) (key : Vector Word 8),
    blockTransform S d b key =
      (let p := (List.range 32).foldl
        (fun p r => feistelRound S p.1 p.2 key[ks d (BitVec.ofNat 5 r)] (r == 31))
        (b.extractLsb' 32 32, b.extractLsb' 0 32)
      (p.1 ++ p.2 : BitVec (32 + 32)))

/-- R138: decryption undoes encryption, for every block, key and substitution table. -/
def Obligations.DecryptionUndoesEncryption : Prop :=
  ∀ (S : SBoxTable) (b : Block) (key : Vector Word 8),
    decryptBlock S (encryptBlock S b key) key = b

/-- R128: the wrong key order is detectable: encrypting a ciphertext again does not in general give the
plaintext back (V-BLK-5 of spec/95_test_vectors.md). -/
def Obligations.WrongKeyOrderIsDetectable : Prop :=
  ∃ (S : SBoxTable) (b : Block) (key : Vector Word 8),
    encryptBlock S (encryptBlock S b key) key ≠ b

/-- R139: encryption undoes decryption as well, and each transform is a bijection on blocks. -/
def Obligations.BlockTransformsAreBijections : Prop :=
  ∀ (S : SBoxTable) (key : Vector Word 8),
    (∀ b : Block, encryptBlock S (decryptBlock S b key) key = b) ∧
    Function.Bijective (fun b : Block => encryptBlock S b key) ∧
    Function.Bijective (fun b : Block => decryptBlock S b key)

/-! ### The commands -/

/-- R130, R131, the accepting branch of ENC and DEC: in IDLE with a key loaded, also when a result stands
in `DOUT`, the block is latched, the direction is the command's, and the first round comes next. No other
register changes. -/
def Obligations.BlockCommandsLatchTheBlock : Prop :=
  ∀ (s : State) (b : Block), s.unreset = false → s.st = .idle → s.keyValid = true →
    exec (.enc b) s = .next
      { s with left := b.extractLsb' 32 32, right := b.extractLsb' 0 32, dir := .encrypt, rc := 0,
               st := .run, done := false, err := .none } ∧
    exec (.dec b) s = .next
      { s with left := b.extractLsb' 32 32, right := b.extractLsb' 0 32, dir := .decrypt, rc := 0,
               st := .run, done := false, err := .none }

/-- R132, the pseudocode of LOADKEY: in IDLE, with or without a key loaded before, all eight fragments
are written and nothing else but `KEY_VALID` and `ERR`; in RUN it is rejected and the key stays. -/
def Obligations.LoadkeyEdge : Prop :=
  ∀ (s : State) (k : KeyBits), s.unreset = false →
    (s.st = .idle → ∃ key : Vector Word 8,
      (∀ i : Fin 8, key[i] = k.extractLsb' (224 - 32 * i.val) 32) ∧
      exec (.loadkey k) s = .next { s with key := key, keyValid := true, err := .none }) ∧
    (s.st = .run → ∃ t, exec (.loadkey k) s = .next t ∧ t.key = s.key ∧ t.keyValid = s.keyValid ∧
      t.err = .busy ∧ noCommandEdge Config.sbox s = .next { t with err := s.err })

/-- R164: the reserved code is rejected with code 3 in IDLE and in RUN alike; in IDLE nothing else
changes, in RUN the round proceeds. -/
def Obligations.ReservedCodeEdge : Prop :=
  (ErrCode.illegal).code = 3 ∧
  ∀ s : State, s.unreset = false →
    (s.st = .idle → exec .illegal s = .next { s with err := .illegal }) ∧
    (s.st = .run → ∃ t, exec .illegal s = .next { t with err := .illegal } ∧
      noCommandEdge Config.sbox s = .next t)

/-- R120: after an accepted LOADKEY, `KEY[i]` is fragment Ki, the big-endian word of key bytes 4i to
4i+3 on the key port. -/
def Obligations.LoadedFragmentsAreBigEndian : Prop :=
  ∀ (s t : State) (k : KeyBits), s.st = .idle → exec (.loadkey k) s = .next t → ∀ i : Fin 8,
    t.key[i] = be32 (k.extractLsb' (248 - 8 * (4 * i.val)) 8) (k.extractLsb' (248 - 8 * (4 * i.val + 1)) 8)
      (k.extractLsb' (248 - 8 * (4 * i.val + 2)) 8) (k.extractLsb' (248 - 8 * (4 * i.val + 3)) 8) ∧
    t.key[i] = k.extractLsb' (224 - 32 * i.val) 32

/-- R45, R62: an accepted block command latches Left as the big-endian word of block bytes 0 to 3 and
Right as that of bytes 4 to 7. -/
def Obligations.LatchedHalvesAreBigEndian : Prop :=
  ∀ (s : State) (b : Block) (d : Direction), s.unreset = false → s.st = .idle → s.keyValid = true →
    ∃ t, exec (blockCommand d b) s = .next t ∧ t.dir = d ∧
      t.left = be32 (b.extractLsb' 56 8) (b.extractLsb' 48 8) (b.extractLsb' 40 8) (b.extractLsb' 32 8) ∧
      t.right = be32 (b.extractLsb' 24 8) (b.extractLsb' 16 8) (b.extractLsb' 8 8) (b.extractLsb' 0 8)

/-! ### Rejections -/

/-- R162: an ENC or DEC in IDLE without a key is rejected with code 1; nothing but `ERR` changes. -/
def Obligations.BlockCommandNeedsKey : Prop :=
  ∀ (s : State) (b : Block), s.unreset = false → s.st = .idle → s.keyValid = false →
    ∀ i : Instr, i = .enc b ∨ i = .dec b →
      exec i s = .next { s with err := .keyNotLoaded } ∧
      (ErrCode.keyNotLoaded).code = 1

/-- R163: an ENC, DEC or LOADKEY in RUN is rejected with code 2; the round of the edge is performed,
`KEY` is not written and the command is not queued. -/
def Obligations.CommandsInRunAreBusy : Prop :=
  ∀ (s : State) (i : Instr), s.unreset = false → s.st = .run → i ≠ .illegal →
    ∃ t, exec i s = .next t ∧ t.err = .busy ∧ (ErrCode.busy).code = 2 ∧
      (t.left, t.right) =
        feistelRound Config.sbox s.left s.right s.key[ks s.dir s.rc] (s.rc == 31) ∧
      t.key = s.key ∧ t.keyValid = s.keyValid ∧ t.dir = s.dir ∧ t.inputs = s.inputs ∧
      noCommandEdge Config.sbox s = .next { t with err := s.err }

/-- R165: one command writes one code, ILLEGAL before BUSY before KEY_NOT_LOADED; at a reset edge no
command is examined and no code is written; a completion at the edge of a rejection does both. -/
def Obligations.ErrorPriority : Prop :=
  (∀ (s t : State) (i : Instr), exec i s = .next t →
    t.err = if i = .illegal then .illegal
      else if s.st = .run then .busy
      else if (∃ b, i = .enc b ∨ i = .dec b) ∧ s.keyValid = false then .keyNotLoaded
      else .none) ∧
  (∀ (s t : State), (nextSample s).rst = true → step s = .next t → t.err = .none) ∧
  (∀ (s : State) (i : Instr), s.unreset = false → s.st = .run → s.rc = 31 →
    ∃ t, exec i s = .next t ∧ t.st = .idle ∧ t.done = true ∧ t.err ≠ .none)

/-- R166: a rejection is precise: the state after it is the state the edge would give without a
command, except `ERR`. -/
def Obligations.RejectionsArePrecise : Prop :=
  ∀ (s t : State) (i : Instr), exec i s = .next t → t.err ≠ .none →
    ∃ u, noCommandEdge Config.sbox s = .next u ∧ t = { u with err := t.err } ∧ u.err = s.err

/-- R167: `ERR` keeps a code until an accepted command or a reset: at any other edge without a new
rejection, the completion edge among them, it stays; and an accepted command or a reset clears it. -/
def Obligations.ErrorCodePersists : Prop :=
  (∀ s t : State, step s = .next t → t.err ≠ s.err →
    (nextSample s).rst = true ∨ (nextSample s).cmdValid = true) ∧
  (∀ (s : State) (i : Instr), s.unreset = false → accepts i s = true →
    ∃ t, exec i s = .next t ∧ t.err = .none) ∧
  (∀ (s : State) (i : Instr), s.unreset = false → accepts i s = false →
    ∃ t, exec i s = .next t ∧ t.err ≠ .none)

/-- R147, R152: for a host that keeps its contract no error code arises. An edge that keeps it clears or
keeps ERR = NONE. After power-up it is kept by a reset edge, and by an edge without a command, which has
no meaning yet (R182); edges without a reset keep it from power-up on only if none of them carries a
command. From power-up, whatever the registers hold, the run from the first reset edge of a host that
keeps the contract at each edge ends with ERR = NONE. -/
def Obligations.ContractKeepsErrorsAway : Prop :=
  (∀ (s : State) (e : EdgeInput), contractKept e s = true →
    (e.rst = true ∨ s.unreset = false ∧ s.err = .none) →
    ∃ t, clockEdge e s = .next t ∧ t.err = .none) ∧
  (∀ (r : State) (e : EdgeInput),
    contractKept e (State.powerUp r) = true ↔ (e.rst = true ∨ e.cmdValid = false)) ∧
  (∀ (r : State) (es : List EdgeInput), noReset es →
    (hostKeepsContract es (State.powerUp r) ↔ ∀ e ∈ es, e.cmdValid = false)) ∧
  (∀ (r : State) (before : List EdgeInput) (e : EdgeInput) (es : List EdgeInput),
    noReset before → e.rst = true → hostKeepsContract (before ++ e :: es) (State.powerUp r) →
    (∀ x ∈ before, x.cmdValid = false) ∧
    ∃ t, runOn (e :: es) (State.powerUp r) = .next t ∧ t.err = .none)

/-! ### The round FSM and the step function -/

/-- R66, R133: an edge without a command does what the state requires: a round in RUN, nothing in IDLE;
the other ports are ignored and no `ERR` is written. -/
def Obligations.EdgeWithoutCommand : Prop :=
  ∀ (s : State) (e : EdgeInput), s.unreset = false → e.rst = false → e.cmdValid = false →
    (s.st = .idle → clockEdge e s = .next s) ∧
    (s.st = .run → ∃ t, clockEdge e s = .next t ∧ t.err = s.err ∧
      (t.left, t.right) =
        feistelRound Config.sbox s.left s.right s.key[ks s.dir s.rc] (s.rc == 31)) ∧
    (∀ e' : EdgeInput, e'.rst = false → e'.cmdValid = false → clockEdge e' s = clockEdge e s)

/-- R134: a RUN edge before the last performs round `RC` and counts it, whatever command is presented;
the command only writes `ERR`. -/
def Obligations.RunEdgePerformsRound : Prop :=
  ∀ (s : State) (e : EdgeInput), s.unreset = false → e.rst = false → s.st = .run → s.rc ≠ 31 →
    ∃ p : Word × Word,
      p = feistelRound Config.sbox s.left s.right s.key[ks s.dir s.rc] false ∧
      clockEdge e s = .next
        { s with left := p.1, right := p.2, rc := s.rc + 1,
                 err := if e.cmdValid = false then s.err else if e.cmd = 0b11 then .illegal else .busy } ∧
      (s.rc + 1).toNat = s.rc.toNat + 1

/-- R135: the completion edge performs the terminal round, returns to IDLE, writes the result and sets
`DONE`; `ERR` is not changed by it. -/
def Obligations.CompletionEdge : Prop :=
  ∀ (s : State) (e : EdgeInput), s.unreset = false → e.rst = false → s.st = .run → s.rc = 31 →
    ∃ p : Word × Word,
      p = feistelRound Config.sbox s.left s.right s.key[ks s.dir 31] true ∧
      ∃ t, clockEdge e s = .next t ∧
        t = { s with left := p.1, right := p.2, st := .idle, rc := 0, dout := p.1 ++ p.2, done := true,
                     err := if e.cmdValid = false then s.err
                       else if e.cmd = 0b11 then .illegal else .busy } ∧
        busy t = false ∧ blockOut t = p.1 ++ p.2

/-- R136: the machine's edge, composed of the commands' meanings, is the one step function the rule
writes. The outputs are the two views of the state. -/
def Obligations.EdgeIsTheStepFunction : Prop :=
  (∀ (s : State) (e : EdgeInput), s.unreset = false →
    clockEdge e s = .next (stepFunction Config.sbox s e)) ∧
  (∀ s : State, blockOut s = s.dout ∧
    status s = s.err.code ++ BitVec.ofBool s.keyValid ++ BitVec.ofBool s.done ++
      BitVec.ofBool (s.st == .run))

/-- R145, R141, R143: from an accepted ENC or DEC on, each edge without reset performs the next round,
0 to 31 in order, whatever the data and whatever is presented; BUSY is 1 and `DOUT` still holds the
previous result. -/
def Obligations.RoundsRunInOrder : Prop :=
  ∀ (s : State) (e : EdgeInput) (es : List EdgeInput) (d : Direction) (b : Block),
    s.unreset = false → s.st = .idle → s.keyValid = true →
    e.rst = false → decode e = .instr (blockCommand d b) → noReset es → es.length ≤ 31 →
    ∃ t, runOn (e :: es) s = .next t ∧ t.st = .run ∧ busy t = true ∧
      t.rc.toNat = es.length ∧ t.dir = d ∧ t.key = s.key ∧
      (t.left, t.right) =
        roundsFrom Config.sbox d s.key (b.extractLsb' 32 32, b.extractLsb' 0 32) es.length ∧
      t.dout = s.dout ∧ t.done = false ∧ t.inputs = s.inputs

/-- R137, R141: 32 edges after an accepted ENC or DEC with no reset between, whatever commands are
presented at them, the result is the block transform of the latched block under the loaded key, `DONE`
is 1 and BUSY 0. -/
def Obligations.BlockCompletesAfterThirtyTwoEdges : Prop :=
  ∀ (s : State) (e : EdgeInput) (es : List EdgeInput) (d : Direction) (b : Block),
    s.unreset = false → s.st = .idle → s.keyValid = true →
    e.rst = false → decode e = .instr (blockCommand d b) → noReset es → es.length = 32 →
    ∃ t, runOn (e :: es) s = .next t ∧
      t.dout = blockTransform Config.sbox d b s.key ∧ blockOut t = t.dout ∧
      t.left ++ t.right = t.dout ∧ t.done = true ∧ t.st = .idle ∧ busy t = false ∧ t.rc = 0 ∧
      t.dir = d ∧ t.key = s.key ∧ t.keyValid = true

/-- R142: a command at any of the 32 edges after an accepting edge is rejected with BUSY or ILLEGAL, and
at the edge after them any command but the reserved code is accepted. -/
def Obligations.NextCommandAfterThirtyThreeEdges : Prop :=
  ∀ (s : State) (e : EdgeInput) (es : List EdgeInput) (d : Direction) (b : Block),
    s.unreset = false → s.st = .idle → s.keyValid = true →
    e.rst = false → decode e = .instr (blockCommand d b) → noReset es →
    (es.length ≤ 31 → ∃ t, runOn (e :: es) s = .next t ∧ ∀ i : Instr, accepts i t = false ∧
      ∃ u, exec i t = .next u ∧ (u.err = .busy ∨ u.err = .illegal)) ∧
    (es.length = 32 → ∃ t, runOn (e :: es) s = .next t ∧ ∀ i : Instr, i ≠ .illegal →
      accepts i t = true ∧ ∃ u, exec i t = .next u ∧ u.err = .none)

/-- R140: the result depends only on the latched block, the direction and the key: not on the state
before, on the samples of the RUN edges, or on what waits on the ports. -/
def Obligations.ResultDependsOnlyOnBlockAndKey : Prop :=
  ∀ (s₁ s₂ : State) (e₁ e₂ : EdgeInput) (es₁ es₂ : List EdgeInput) (d : Direction) (b : Block),
    s₁.unreset = false → s₁.st = .idle → s₁.keyValid = true →
    s₂.unreset = false → s₂.st = .idle → s₂.keyValid = true → s₁.key = s₂.key →
    e₁.rst = false → decode e₁ = .instr (blockCommand d b) → noReset es₁ → es₁.length = 32 →
    e₂.rst = false → decode e₂ = .instr (blockCommand d b) → noReset es₂ → es₂.length = 32 →
    ∃ t₁ t₂, runOn (e₁ :: es₁) s₁ = .next t₁ ∧ runOn (e₂ :: es₂) s₂ = .next t₂ ∧
      t₁.done = true ∧ t₂.done = true ∧ blockOut t₁ = blockOut t₂

/-- R146: nothing in the engine's timing or control depends on the data: two runs whose states and
samples differ only in key, halves, result and operands keep the same control state, so the same
`status`. -/
def Obligations.ControlIsDataIndependent : Prop :=
  ∀ (es₁ es₂ : List EdgeInput) (s₁ s₂ t₁ : State),
    es₁.map EdgeInput.controlPart = es₂.map EdgeInput.controlPart → controlPart s₁ = controlPart s₂ →
    runOn es₁ s₁ = .next t₁ →
    ∃ t₂, runOn es₂ s₂ = .next t₂ ∧ controlPart t₁ = controlPart t₂ ∧ status t₁ = status t₂

/-- R190, R144: a block command at the edge right after an accepted LOADKEY uses the new key. -/
def Obligations.NewKeyIsUsedAtOnce : Prop :=
  ∀ (s : State) (k : KeyBits) (d : Direction) (b : Block) (es : List EdgeInput),
    s.unreset = false → s.st = .idle → noReset es → es.length = 32 →
    ∃ t, runOn (encode (.loadkey k) :: encode (blockCommand d b) :: es) s = .next t ∧
      t.done = true ∧ blockOut t = blockTransform Config.sbox d b (keyFragments k)

/-- R189, R180: the operand ports are read only at the edge that accepts a command; at every other edge,
a reset edge among them, they may hold anything. -/
def Obligations.OperandsMatterOnlyWhenAccepted : Prop :=
  ∀ (s : State) (e e' : EdgeInput), e.controlPart = e'.controlPart →
    (e.rst = true ∨ ∀ i, decode e = .instr i → accepts i s = false) → clockEdge e s = clockEdge e' s

/-! ### Who writes each register -/

/-- R20, R21, R43: `KEY` is written, all of it at once, by an accepted LOADKEY and by reset and by
nothing else; `KEY_VALID` is set by an accepted LOADKEY and cleared only by reset. -/
def Obligations.KeyWrittenOnlyByLoadkey : Prop :=
  ∀ s t : State, step s = .next t → (nextSample s).rst = false →
    (∀ k, decode (nextSample s) = .instr (.loadkey k) → s.st = .idle →
      (∀ i : Fin 8, t.key[i] = k.extractLsb' (224 - 32 * i.val) 32) ∧ t.keyValid = true) ∧
    (((∀ k, decode (nextSample s) ≠ .instr (.loadkey k)) ∨ s.st = .run) →
      t.key = s.key ∧ t.keyValid = s.keyValid)

/-- R22: IDLE goes to RUN on an accepted ENC or DEC, RUN goes to IDLE at the completion edge, reset goes
to IDLE; no other transition exists. -/
def Obligations.FsmTransitions : Prop :=
  ∀ s t : State, step s = .next t →
    (s.st = .idle → t.st = .run →
      (nextSample s).rst = false ∧ s.keyValid = true ∧
      ∃ b, decode (nextSample s) = .instr (.enc b) ∨ decode (nextSample s) = .instr (.dec b)) ∧
    (s.st = .run → t.st = .idle → (nextSample s).rst = true ∨ s.rc = 31) ∧
    ((nextSample s).rst = true → t.st = .idle)

/-- R23: `RC` is written 0 by an accepted ENC or DEC, goes up by 1 at a RUN edge before the last, is
written 0 at the completion edge and by reset, and is otherwise kept. It never wraps. -/
def Obligations.RoundCounterRule : Prop :=
  ∀ s t : State, step s = .next t →
    ((nextSample s).rst = true → t.rc = 0) ∧
    ((nextSample s).rst = false → s.st = .run → s.rc ≠ 31 → t.rc.toNat = s.rc.toNat + 1) ∧
    ((nextSample s).rst = false → s.st = .run → s.rc = 31 → t.rc = 0) ∧
    (s.st = .idle → t.st = .run → t.rc = 0) ∧
    ((nextSample s).rst = false → s.st = .idle → t.st = .idle → t.rc = s.rc)

/-- R24, R25: outside RUN and reset, `DIR`, `L` and `R` change only where a block command is accepted;
in RUN `DIR` is kept, at the completion edge too. -/
def Obligations.BlockRegistersKeptWhenIdle : Prop :=
  ∀ s t : State, step s = .next t → (nextSample s).rst = false →
    (s.st = .idle → t.st = .idle → t.dir = s.dir ∧ t.left = s.left ∧ t.right = s.right) ∧
    (s.st = .run → t.dir = s.dir) ∧
    (s.st = .idle → t.st = .run → t.dir =
      if (nextSample s).cmd.getLsbD 0 then .decrypt else .encrypt)

/-- R26, R143: `DOUT` is written only at a completion edge, with the halves of the terminal round, and by
reset; it never holds an intermediate round value. -/
def Obligations.ResultWrittenOnlyAtCompletion : Prop :=
  ∀ s t : State, step s = .next t → (nextSample s).rst = false →
    (¬(s.st = .run ∧ s.rc = 31) → t.dout = s.dout) ∧
    (s.st = .run → s.rc = 31 → t.dout = t.left ++ t.right ∧ t.done = true ∧ t.st = .idle)

/-- R27: `DONE` is set at the completion edge, cleared by an accepted ENC or DEC and by reset; LOADKEY,
rejected commands and every other edge leave it. -/
def Obligations.DoneFlagRule : Prop :=
  ∀ s t : State, step s = .next t →
    ((nextSample s).rst = true → t.done = false) ∧
    ((nextSample s).rst = false → s.st = .run → s.rc = 31 → t.done = true) ∧
    (s.st = .idle → t.st = .run → t.done = false) ∧
    ((nextSample s).rst = false → s.st = .run → s.rc ≠ 31 → t.done = s.done) ∧
    ((nextSample s).rst = false → s.st = .idle → t.st = .idle → t.done = s.done)

/-- R28: every accepted command writes `ERR` 0, every rejected command writes its code, and an edge
without a command leaves it, the completion edge among them. -/
def Obligations.ErrorRegisterRule : Prop :=
  ∀ s t : State, step s = .next t → (nextSample s).rst = false →
    ((nextSample s).cmdValid = false → t.err = s.err) ∧
    (∀ i, decode (nextSample s) = .instr i → accepts i s = true → t.err.code = 0) ∧
    (∀ i, decode (nextSample s) = .instr i → accepts i s = false →
      t.err.code = if i = .illegal then 3 else if s.st = .run then 2 else 1)

/-- R29: the fields of the `status` port. -/
def Obligations.StatusFields : Prop :=
  (∀ s : State,
    ((status s).getLsbD 0 = true ↔ s.st = .run) ∧ (status s).getLsbD 1 = s.done ∧
    (status s).getLsbD 2 = s.keyValid ∧ (status s).extractLsb' 3 2 = s.err.code) ∧
  status State.reset = 0b00000

/-- R49: loading the same key twice leaves the same state as loading it once. -/
def Obligations.LoadkeyTwiceIsOnce : Prop :=
  ∀ (s : State) (k : KeyBits), s.unreset = false → s.st = .idle →
    ∃ t, exec (.loadkey k) s = .next t ∧ exec (.loadkey k) t = .next t

/-! ### Invariants -/

/-- R180: the invariant holds right after reset. -/
def Obligations.InvariantAtReset : Prop := State.reset.Inv

/-- R20 to R27, R165: the invariant of the registers is kept by every step, whatever is presented. A
step out of an unreset state is a reset edge, so it needs no premise there. -/
def Obligations.EveryStepKeepsInvariant : Prop :=
  ∀ s t : State, s.Inv → step s = .next t → t.Inv ∧ t.unreset = false

/-! ### The host -/

/-- R70: `WAIT` ends with BUSY = 0 in every engine after a reset, takes no edge where BUSY is 0, and
after an accepted ENC or DEC is exactly `IDLE 32`. -/
def Obligations.WaitIsThirtyTwoIdleEdges : Prop :=
  ∀ (S : SBoxTable) (s : State), s.unreset = false →
    (∃ t, wait S s = .next t ∧ busy t = false) ∧
    (busy s = false → wait S s = .next s) ∧
    (∀ (d : Direction) (b : Block) (t : State), s.st = .idle → s.keyValid = true →
      execWith S (blockCommand d b) s = .next t →
      wait S t = runEdges S (List.replicate 32 EdgeInput.idle) t)

/-- R148, R149, R152: a call whose buffer is not a multiple of 8 bytes or whose key is not 32 bytes
fails with the error of a check that failed, and presents no command. The order of the two checks is
open (log 9). -/
def Obligations.HostRejectsWrongLengths : Prop :=
  ∀ (S : SBoxTable) (d : Direction) (buffer key : List Byte) (s : State),
    ((buffer.length % 8 ≠ 0 ∨ key.length ≠ 32) →
      ∃ err, hostCrypt S d buffer key s = .failed err ∧
        (err = .invalidBufferLength buffer.length ∧ buffer.length % 8 ≠ 0 ∨
          err = .invalidKeyLength ∧ key.length ≠ 32)) ∧
    (buffer.length % 8 = 0 → key.length = 32 → ∀ err, hostCrypt S d buffer key s ≠ .failed err)

/-- R150: a checked call gives the block transforms of the buffer's chunks in order, as many bytes as
the buffer has; chunk `j` is bytes `8j` to `8j+7`. An empty buffer gives no command and no bytes. That a
call loads its key is the model's form of it (log 11).
The key is the host's list of 32 bytes: fragment `i` is the big-endian word of its bytes 4i to 4i+3 (R46,
R120, R149). -/
def Obligations.HostCallTransformsEachChunk : Prop :=
  ∀ (S : SBoxTable) (d : Direction) (buffer key : List Byte) (s : State),
    buffer.length % 8 = 0 → key.length = 32 → s.unreset = false → s.st = .idle →
    ∃ t out, hostCrypt S d buffer key s = .ran (.next (t, out)) ∧ out.length = buffer.length ∧
      t.st = .idle ∧ (buffer = [] → t = s) ∧ (buffer ≠ [] → t.keyValid = true ∧ t.err = .none) ∧
      ∀ j, 8 * j + 7 < buffer.length →
        (out.drop (8 * j)).take 8 =
          blockBytes (blockTransform S d
            (BitVec.ofNat 64 (((buffer.drop (8 * j)).take 8).foldl (fun n b => n * 256 + b.toNat) 0))
            (Vector.ofFn fun i : Fin 8 => be32 (key.getD (4 * i.val) 0) (key.getD (4 * i.val + 1) 0)
              (key.getD (4 * i.val + 2) 0) (key.getD (4 * i.val + 3) 0)))

/-- R138, R150 (V-SRC-5 of spec/95_test_vectors.md): decrypting what a host call encrypted gives the
buffer back, on any engine that stands in IDLE after a reset. -/
def Obligations.HostRoundTrip : Prop :=
  ∀ (S : SBoxTable) (buffer key : List Byte) (s s' : State),
    buffer.length % 8 = 0 → key.length = 32 →
    s.unreset = false → s.st = .idle → s'.unreset = false → s'.st = .idle →
    ∃ t t' out, hostCrypt S .encrypt buffer key s = .ran (.next (t, out)) ∧
      hostCrypt S .decrypt out key s' = .ran (.next (t', buffer))

/-- R151, R54: a host that runs the chunks on several engines, in any order, gets the results in chunk
order. -/
def Obligations.ParallelHostKeepsChunkOrder : Prop :=
  ∀ (S : SBoxTable) (d : Direction) (key : KeyBits) (chunks : List Block) (engineOf : Nat → State)
    (order : List Nat),
    order.Perm (List.range chunks.length) →
    (∀ j, (engineOf j).unreset = false ∧ (engineOf j).st = .idle) →
    hostCryptParallel S d key chunks engineOf order =
      .next (chunks.map fun c => some (blockTransform S d c (keyFragments key)))

/-- R54: engines side by side share nothing but the table: what engine `j` does at an edge is the edge of
its own state with its own sample, whatever the others are and are given; a position without an engine or
without a sample has no outcome. -/
def Obligations.InstancesAreIndependent : Prop :=
  ∀ (S : SBoxTable) (samples : List EdgeInput) (engines : List State) (j : Nat),
    (∀ (e : EdgeInput) (s : State), samples[j]? = some e → engines[j]? = some s →
      (fleetEdge S samples engines)[j]? = some (clockEdgeWith S e s)) ∧
    (samples[j]? = none ∨ engines[j]? = none → (fleetEdge S samples engines)[j]? = none)
end

