-- ==== Sys2Proof/Laws/Cipher.lean ====
section
/-!
SUPPORT. The datapath's functions, one equation each, so that no proof unfolds them: the arithmetic, the
bytes of a word, the round in its two forms, and what each reads of the substitution table.
-/

namespace Sys2Proof.Machine

variable {S S' : SBoxTable}

theorem add32_eq_add (a b : Word) : add32 a b = a + b := by
  apply BitVec.eq_of_toNat_eq
  simp [add32, BitVec.toNat_add]

theorem sboxLookup_toNat (S : SBoxTable) (r : Fin 8) (n : Nibble) :
    (sboxLookup S r n).toNat = (S r n.toFin).val := rfl

theorem append_toNat {n m : Nat} (x : BitVec n) (y : BitVec m) :
    (x ++ y).toNat = x.toNat * 2 ^ m + y.toNat := by
  rw [BitVec.toNat_append, ← Nat.shiftLeft_add_eq_or_of_lt y.isLt, Nat.shiftLeft_eq]

/-- Splitting a word at its bytes is division and remainder. -/
theorem wordByte_toNat (w : Word) (i : Fin 4) :
    (wordByte w i).toNat = w.toNat / 2 ^ (24 - 8 * i.val) % 2 ^ 8 := by
  simp [wordByte, BitVec.extractLsb'_toNat, Nat.shiftRight_eq_div_pow]

theorem be32_append (b0 b1 b2 b3 : Byte) :
    (be32 b0 b1 b2 b3).toNat = (b0 ++ b1 ++ b2 ++ b3 : BitVec (8 + 8 + 8 + 8)).toNat := rfl

theorem wordByte_be32 (b0 b1 b2 b3 : Byte) :
    wordByte (be32 b0 b1 b2 b3) 0 = b0 ∧ wordByte (be32 b0 b1 b2 b3) 1 = b1 ∧
    wordByte (be32 b0 b1 b2 b3) 2 = b2 ∧ wordByte (be32 b0 b1 b2 b3) 3 = b3 := by
  have h0 := b0.isLt
  have h1 := b1.isLt
  have h2 := b2.isLt
  have h3 := b3.isLt
  refine ⟨?_, ?_, ?_, ?_⟩ <;>
    · apply BitVec.eq_of_toNat_eq
      rw [wordByte_toNat, be32_append, append_toNat, append_toNat, append_toNat]
      simp
      omega

/-- Byte `i` of the output of MIX is the mixed byte `i` of the sum (R95). -/
theorem wordByte_mix (S : SBoxTable) (h k : Word) (i : Fin 4) :
    wordByte (mix S h k) i = mixByte S (add32 h k) i := by
  obtain ⟨h0, h1, h2, h3⟩ := wordByte_be32 (mixByte S (add32 h k) 0) (mixByte S (add32 h k) 1)
    (mixByte S (add32 h k) 2) (mixByte S (add32 h k) 3)
  match i with
  | 0 => exact h0
  | 1 => exact h1
  | 2 => exact h2
  | 3 => exact h3

theorem rotl8_rotAmount (x : Byte) : rotl8 x Config.rotAmount = (x <<< 3) ||| (x >>> 5) := rfl

/-- A mixed byte depends on the two rows of its byte only (R93). -/
theorem mixByte_congr (s : Word) (i : Fin 4)
    (hi : ∀ n, S (highRow i) n = S' (highRow i) n) (lo : ∀ n, S (lowRow i) n = S' (lowRow i) n) :
    mixByte S s i = mixByte S' s i := by
  simp [mixByte, substituteByte, sboxLookup, hi, lo]

theorem feistelRound_terminal (S : SBoxTable) (l r k : Word) :
    feistelRound S l r k true = (l ^^^ mix S r k, r) := rfl

theorem feistelRound_swap (S : SBoxTable) (l r k : Word) :
    feistelRound S l r k false = (r, l ^^^ mix S r k) := rfl

theorem roundsFrom_succ (S : SBoxTable) (d : Direction) (key : Vector Word 8) (p : Word × Word)
    (n : Nat) :
    roundsFrom S d key p (n + 1) = blockRound S d key (BitVec.ofNat 5 n) (roundsFrom S d key p n) :=
  rfl

/-- A round before the last swaps the halves (R111, R112). -/
theorem blockRound_swap (S : SBoxTable) (d : Direction) (key : Vector Word 8) {rc : BitVec 5}
    (h : rc ≠ 31) (p : Word × Word) :
    blockRound S d key rc p = (p.2, p.1 ^^^ mix S p.2 (ksel key d rc)) := by
  have hrc : (rc == Config.terminalRound) = false := by simpa [Config.terminalRound] using h
  simp [blockRound, feistelRound, hrc]

/-- The terminal round does not swap (R111, R112). -/
theorem blockRound_terminal (S : SBoxTable) (d : Direction) (key : Vector Word 8) (p : Word × Word) :
    blockRound S d key 31 p = (p.1 ^^^ mix S p.2 (ksel key d 31), p.2) := rfl

theorem ksel_congr (key : Vector Word 8) {d d' : Direction} {rc rc' : BitVec 5}
    (h : ks d rc = ks d' rc') : ksel key d rc = ksel key d' rc' :=
  congrArg (fun i : Fin 8 => key[i]) h

/-- The transform from the halves after 32 rounds. The rounds stand in a hypothesis, so that no proof
that cites this computes them. -/
theorem blockTransform_of {S : SBoxTable} {d : Direction} {b : Block} {key : Vector Word 8}
    {q : Word × Word} (h : roundsFrom S d key (leftHalf b, rightHalf b) 32 = q) :
    blockTransform S d b key = (q.1 ++ q.2 : BitVec (32 + 32)) := by
  rw [← h]
  rfl

theorem leftHalf_append (l r : Word) : leftHalf (l ++ r : BitVec (32 + 32)) = l := by
  apply BitVec.eq_of_getLsbD_eq
  intro j hj
  show BitVec.getLsbD (BitVec.extractLsb' 32 32 (l ++ r)) j = _
  rw [BitVec.getLsbD_extractLsb', BitVec.getLsbD_append]
  simp [hj]

theorem rightHalf_append (l r : Word) : rightHalf (l ++ r : BitVec (32 + 32)) = r := by
  apply BitVec.eq_of_getLsbD_eq
  intro j hj
  show BitVec.getLsbD (BitVec.extractLsb' 0 32 (l ++ r)) j = _
  rw [BitVec.getLsbD_extractLsb', BitVec.getLsbD_append]
  simp [hj]

theorem append_halves (b : Block) : (leftHalf b ++ rightHalf b : BitVec (32 + 32)) = b := by
  apply BitVec.eq_of_getLsbD_eq
  intro j hj
  rw [BitVec.getLsbD_append]
  simp only [leftHalf, rightHalf, BitVec.getLsbD_extractLsb']
  split
  · simp [*]
  · rename_i h
    rw [show 32 + (j - 32) = j by omega]
    simp
    omega

theorem keyFragments_get (k : KeyBits) (i : Fin 8) : (keyFragments k)[i] = keyFragment k i := by
  match i with
  | 0 => rfl
  | 1 => rfl
  | 2 => rfl
  | 3 => rfl
  | 4 => rfl
  | 5 => rfl
  | 6 => rfl
  | 7 => rfl

end Sys2Proof.Machine
end

