-- ==== Sys2Proof/Laws/State.lean ====
section
/-!
SUPPORT. One lemma for each field of State under each of the shared updates, so that no proof unfolds a
record update.
-/

namespace Sys2Proof.Machine

variable (s : State)

/-! ### writeKey -/

@[simp] theorem writeKey_key (k : Vector Word 8) : (writeKey k s).key = k := rfl
@[simp] theorem writeKey_keyValid (k : Vector Word 8) : (writeKey k s).keyValid = true := rfl
@[simp] theorem writeKey_st (k : Vector Word 8) : (writeKey k s).st = s.st := rfl
@[simp] theorem writeKey_rc (k : Vector Word 8) : (writeKey k s).rc = s.rc := rfl
@[simp] theorem writeKey_dir (k : Vector Word 8) : (writeKey k s).dir = s.dir := rfl
@[simp] theorem writeKey_left (k : Vector Word 8) : (writeKey k s).left = s.left := rfl
@[simp] theorem writeKey_right (k : Vector Word 8) : (writeKey k s).right = s.right := rfl
@[simp] theorem writeKey_dout (k : Vector Word 8) : (writeKey k s).dout = s.dout := rfl
@[simp] theorem writeKey_done (k : Vector Word 8) : (writeKey k s).done = s.done := rfl
@[simp] theorem writeKey_err (k : Vector Word 8) : (writeKey k s).err = s.err := rfl
@[simp] theorem writeKey_unreset (k : Vector Word 8) : (writeKey k s).unreset = s.unreset := rfl
@[simp] theorem writeKey_inputs (k : Vector Word 8) : (writeKey k s).inputs = s.inputs := rfl

/-! ### latchBlock -/

@[simp] theorem latchBlock_key (d : Direction) (l r : Word) : (latchBlock d l r s).key = s.key := rfl
@[simp] theorem latchBlock_keyValid (d : Direction) (l r : Word) : (latchBlock d l r s).keyValid = s.keyValid := rfl
@[simp] theorem latchBlock_st (d : Direction) (l r : Word) : (latchBlock d l r s).st = .run := rfl
@[simp] theorem latchBlock_rc (d : Direction) (l r : Word) : (latchBlock d l r s).rc = 0 := rfl
@[simp] theorem latchBlock_dir (d : Direction) (l r : Word) : (latchBlock d l r s).dir = d := rfl
@[simp] theorem latchBlock_left (d : Direction) (l r : Word) : (latchBlock d l r s).left = l := rfl
@[simp] theorem latchBlock_right (d : Direction) (l r : Word) : (latchBlock d l r s).right = r := rfl
@[simp] theorem latchBlock_dout (d : Direction) (l r : Word) : (latchBlock d l r s).dout = s.dout := rfl
@[simp] theorem latchBlock_done (d : Direction) (l r : Word) : (latchBlock d l r s).done = false := rfl
@[simp] theorem latchBlock_err (d : Direction) (l r : Word) : (latchBlock d l r s).err = s.err := rfl
@[simp] theorem latchBlock_unreset (d : Direction) (l r : Word) : (latchBlock d l r s).unreset = s.unreset := rfl
@[simp] theorem latchBlock_inputs (d : Direction) (l r : Word) : (latchBlock d l r s).inputs = s.inputs := rfl

/-! ### advanceRound -/

@[simp] theorem advanceRound_key (p : Word × Word) : (advanceRound p s).key = s.key := rfl
@[simp] theorem advanceRound_keyValid (p : Word × Word) : (advanceRound p s).keyValid = s.keyValid := rfl
@[simp] theorem advanceRound_st (p : Word × Word) : (advanceRound p s).st = s.st := rfl
@[simp] theorem advanceRound_rc (p : Word × Word) : (advanceRound p s).rc = s.rc + 1 := rfl
@[simp] theorem advanceRound_dir (p : Word × Word) : (advanceRound p s).dir = s.dir := rfl
@[simp] theorem advanceRound_left (p : Word × Word) : (advanceRound p s).left = p.1 := rfl
@[simp] theorem advanceRound_right (p : Word × Word) : (advanceRound p s).right = p.2 := rfl
@[simp] theorem advanceRound_dout (p : Word × Word) : (advanceRound p s).dout = s.dout := rfl
@[simp] theorem advanceRound_done (p : Word × Word) : (advanceRound p s).done = s.done := rfl
@[simp] theorem advanceRound_err (p : Word × Word) : (advanceRound p s).err = s.err := rfl
@[simp] theorem advanceRound_unreset (p : Word × Word) : (advanceRound p s).unreset = s.unreset := rfl
@[simp] theorem advanceRound_inputs (p : Word × Word) : (advanceRound p s).inputs = s.inputs := rfl

/-! ### completeBlock -/

@[simp] theorem completeBlock_key (p : Word × Word) : (completeBlock p s).key = s.key := rfl
@[simp] theorem completeBlock_keyValid (p : Word × Word) : (completeBlock p s).keyValid = s.keyValid := rfl
@[simp] theorem completeBlock_st (p : Word × Word) : (completeBlock p s).st = .idle := rfl
@[simp] theorem completeBlock_rc (p : Word × Word) : (completeBlock p s).rc = 0 := rfl
@[simp] theorem completeBlock_dir (p : Word × Word) : (completeBlock p s).dir = s.dir := rfl
@[simp] theorem completeBlock_left (p : Word × Word) : (completeBlock p s).left = p.1 := rfl
@[simp] theorem completeBlock_right (p : Word × Word) : (completeBlock p s).right = p.2 := rfl
@[simp] theorem completeBlock_dout (p : Word × Word) : (completeBlock p s).dout = p.1 ++ p.2 := rfl
@[simp] theorem completeBlock_done (p : Word × Word) : (completeBlock p s).done = true := rfl
@[simp] theorem completeBlock_err (p : Word × Word) : (completeBlock p s).err = s.err := rfl
@[simp] theorem completeBlock_unreset (p : Word × Word) : (completeBlock p s).unreset = s.unreset := rfl
@[simp] theorem completeBlock_inputs (p : Word × Word) : (completeBlock p s).inputs = s.inputs := rfl

/-! ### reject -/

@[simp] theorem reject_key (c : ErrCode) : (reject c s).key = s.key := rfl
@[simp] theorem reject_keyValid (c : ErrCode) : (reject c s).keyValid = s.keyValid := rfl
@[simp] theorem reject_st (c : ErrCode) : (reject c s).st = s.st := rfl
@[simp] theorem reject_rc (c : ErrCode) : (reject c s).rc = s.rc := rfl
@[simp] theorem reject_dir (c : ErrCode) : (reject c s).dir = s.dir := rfl
@[simp] theorem reject_left (c : ErrCode) : (reject c s).left = s.left := rfl
@[simp] theorem reject_right (c : ErrCode) : (reject c s).right = s.right := rfl
@[simp] theorem reject_dout (c : ErrCode) : (reject c s).dout = s.dout := rfl
@[simp] theorem reject_done (c : ErrCode) : (reject c s).done = s.done := rfl
@[simp] theorem reject_err (c : ErrCode) : (reject c s).err = c := rfl
@[simp] theorem reject_unreset (c : ErrCode) : (reject c s).unreset = s.unreset := rfl
@[simp] theorem reject_inputs (c : ErrCode) : (reject c s).inputs = s.inputs := rfl

/-! ### clearError -/

@[simp] theorem clearError_key : (clearError s).key = s.key := rfl
@[simp] theorem clearError_keyValid : (clearError s).keyValid = s.keyValid := rfl
@[simp] theorem clearError_st : (clearError s).st = s.st := rfl
@[simp] theorem clearError_rc : (clearError s).rc = s.rc := rfl
@[simp] theorem clearError_dir : (clearError s).dir = s.dir := rfl
@[simp] theorem clearError_left : (clearError s).left = s.left := rfl
@[simp] theorem clearError_right : (clearError s).right = s.right := rfl
@[simp] theorem clearError_dout : (clearError s).dout = s.dout := rfl
@[simp] theorem clearError_done : (clearError s).done = s.done := rfl
@[simp] theorem clearError_err : (clearError s).err = .none := rfl
@[simp] theorem clearError_unreset : (clearError s).unreset = s.unreset := rfl
@[simp] theorem clearError_inputs : (clearError s).inputs = s.inputs := rfl

/-! ### resetEdge -/

@[simp] theorem resetEdge_key : (resetEdge s).key = State.reset.key := rfl
@[simp] theorem resetEdge_keyValid : (resetEdge s).keyValid = State.reset.keyValid := rfl
@[simp] theorem resetEdge_st : (resetEdge s).st = State.reset.st := rfl
@[simp] theorem resetEdge_rc : (resetEdge s).rc = State.reset.rc := rfl
@[simp] theorem resetEdge_dir : (resetEdge s).dir = State.reset.dir := rfl
@[simp] theorem resetEdge_left : (resetEdge s).left = State.reset.left := rfl
@[simp] theorem resetEdge_right : (resetEdge s).right = State.reset.right := rfl
@[simp] theorem resetEdge_dout : (resetEdge s).dout = State.reset.dout := rfl
@[simp] theorem resetEdge_done : (resetEdge s).done = State.reset.done := rfl
@[simp] theorem resetEdge_err : (resetEdge s).err = State.reset.err := rfl
@[simp] theorem resetEdge_unreset : (resetEdge s).unreset = State.reset.unreset := rfl
@[simp] theorem resetEdge_inputs : (resetEdge s).inputs = s.inputs := rfl

/-! ### dropSample -/

@[simp] theorem dropSample_key : (dropSample s).key = s.key := rfl
@[simp] theorem dropSample_keyValid : (dropSample s).keyValid = s.keyValid := rfl
@[simp] theorem dropSample_st : (dropSample s).st = s.st := rfl
@[simp] theorem dropSample_rc : (dropSample s).rc = s.rc := rfl
@[simp] theorem dropSample_dir : (dropSample s).dir = s.dir := rfl
@[simp] theorem dropSample_left : (dropSample s).left = s.left := rfl
@[simp] theorem dropSample_right : (dropSample s).right = s.right := rfl
@[simp] theorem dropSample_dout : (dropSample s).dout = s.dout := rfl
@[simp] theorem dropSample_done : (dropSample s).done = s.done := rfl
@[simp] theorem dropSample_err : (dropSample s).err = s.err := rfl
@[simp] theorem dropSample_unreset : (dropSample s).unreset = s.unreset := rfl
@[simp] theorem dropSample_inputs : (dropSample s).inputs = s.inputs.tail := rfl

/-! ### presentNext -/

@[simp] theorem presentNext_key (e : EdgeInput) : (presentNext e s).key = s.key := rfl
@[simp] theorem presentNext_keyValid (e : EdgeInput) : (presentNext e s).keyValid = s.keyValid := rfl
@[simp] theorem presentNext_st (e : EdgeInput) : (presentNext e s).st = s.st := rfl
@[simp] theorem presentNext_rc (e : EdgeInput) : (presentNext e s).rc = s.rc := rfl
@[simp] theorem presentNext_dir (e : EdgeInput) : (presentNext e s).dir = s.dir := rfl
@[simp] theorem presentNext_left (e : EdgeInput) : (presentNext e s).left = s.left := rfl
@[simp] theorem presentNext_right (e : EdgeInput) : (presentNext e s).right = s.right := rfl
@[simp] theorem presentNext_dout (e : EdgeInput) : (presentNext e s).dout = s.dout := rfl
@[simp] theorem presentNext_done (e : EdgeInput) : (presentNext e s).done = s.done := rfl
@[simp] theorem presentNext_err (e : EdgeInput) : (presentNext e s).err = s.err := rfl
@[simp] theorem presentNext_unreset (e : EdgeInput) : (presentNext e s).unreset = s.unreset := rfl
@[simp] theorem presentNext_inputs (e : EdgeInput) : (presentNext e s).inputs = e :: s.inputs.tail := rfl

end Sys2Proof.Machine
end

