-- ==== Sys2Proof/Laws/Edge.lean ====
section
/-!
SUPPORT. What an edge can do, said once: each meaning as one function on states behind the mark of R182,
the machine of Machine/Step.lean as the machine with a table at the engine's own table, and the samples
that wait on the ports, which no edge reads or writes.
-/

namespace Sys2Proof.Machine

variable {s t : State} {e : EdgeInput} {i : Instr} {S : SBoxTable}

/-! ### The mark of R182 -/

theorem clocked_of_unreset_false {f : State → State} (h : s.unreset = false) :
    clocked f s = .next (f s) := by simp [clocked, h]

theorem clocked_of_unreset {f : State → State} (h : s.unreset = true) :
    clocked f s = .refused .neverReset := by simp [clocked, h]

theorem clocked_eq_next_iff {f : State → State} :
    clocked f s = .next t ↔ s.unreset = false ∧ t = f s := by
  unfold clocked
  constructor
  · intro h
    split at h
    · cases h
    · rename_i hu
      exact ⟨by simpa using hu, by injection h with h; exact h.symm⟩
  · rintro ⟨hu, rfl⟩
    simp [hu]

/-! ### The meanings -/

theorem exec_eq_execWith (i : Instr) (s : State) : exec i s = execWith Config.sbox i s := by
  cases i <;> rfl

theorem execWith_eq_clocked (S : SBoxTable) (i : Instr) (s : State) :
    execWith S i s = clocked (commandEdge S i) s := by cases i <;> rfl

theorem exec_eq_clocked (i : Instr) (s : State) :
    exec i s = clocked (commandEdge Config.sbox i) s := by
  rw [exec_eq_execWith, execWith_eq_clocked]

theorem exec_eq_next_iff :
    exec i s = .next t ↔ s.unreset = false ∧ t = commandEdge Config.sbox i s := by
  rw [exec_eq_clocked, clocked_eq_next_iff]

theorem exec_of_unreset_false (h : s.unreset = false) :
    exec i s = .next (commandEdge Config.sbox i s) := exec_eq_next_iff.2 ⟨h, rfl⟩

theorem noCommandEdge_of_unreset_false (h : s.unreset = false) :
    noCommandEdge S s = .next (stateEdge S s) := clocked_of_unreset_false h

/-! ### What the state requires of an edge -/

theorem stateEdge_idle (h : s.st = .idle) : stateEdge S s = s := by simp [stateEdge, h]

theorem stateEdge_run (h : s.st = .run) : stateEdge S s = runEdge S s := by simp [stateEdge, h]

theorem runEdge_last (h : s.rc = 31) :
    runEdge S s = completeBlock (blockRound S s.dir s.key s.rc (s.left, s.right)) s := by
  unfold runEdge
  exact if_pos h

theorem runEdge_not_last (h : s.rc ≠ 31) :
    runEdge S s = advanceRound (blockRound S s.dir s.key s.rc (s.left, s.right)) s := by
  unfold runEdge
  exact if_neg h

/-- A RUN edge does one of two things: the completion edge or an earlier round. -/
theorem runEdge_cases (S : SBoxTable) (s : State) :
    (s.rc = 31 ∧ runEdge S s = completeBlock (blockRound S s.dir s.key s.rc (s.left, s.right)) s) ∨
    (s.rc ≠ 31 ∧ runEdge S s = advanceRound (blockRound S s.dir s.key s.rc (s.left, s.right)) s) := by
  by_cases h : s.rc = 31
  · exact .inl ⟨h, runEdge_last h⟩
  · exact .inr ⟨h, runEdge_not_last h⟩

/-- What no RUN edge writes: the key, the direction, `ERR`, the mark and the ports. -/
theorem runEdge_frame (S : SBoxTable) (s : State) :
    (runEdge S s).key = s.key ∧ (runEdge S s).keyValid = s.keyValid ∧ (runEdge S s).dir = s.dir ∧
    (runEdge S s).err = s.err ∧ (runEdge S s).unreset = s.unreset ∧
    (runEdge S s).inputs = s.inputs := by
  obtain ⟨-, h⟩ | ⟨-, h⟩ := runEdge_cases S s <;> simp [h]

/-! ### The commands, in RUN and in IDLE -/

/-- The code of the rejection of a command in RUN (R163, R164). -/
def runCode : Instr → ErrCode
  | .enc _ => .busy
  | .dec _ => .busy
  | .loadkey _ => .busy
  | .illegal => .illegal

theorem commandEdge_run (h : s.st = .run) :
    commandEdge S i s = reject (runCode i) (runEdge S s) := by
  cases i <;>
    simp [commandEdge, blockCommandEdge, loadkeyEdge, rejectedEdge, stateEdge, runCode, h]

theorem commandEdge_enc_accepted (b : Block) (h : s.st = .idle) (hk : s.keyValid = true) :
    commandEdge S (.enc b) s =
      clearError (latchBlock .encrypt (leftHalf b) (rightHalf b) s) := by
  simp [commandEdge, blockCommandEdge, h, hk]

theorem commandEdge_dec_accepted (b : Block) (h : s.st = .idle) (hk : s.keyValid = true) :
    commandEdge S (.dec b) s =
      clearError (latchBlock .decrypt (leftHalf b) (rightHalf b) s) := by
  simp [commandEdge, blockCommandEdge, h, hk]

theorem commandEdge_enc_noKey (b : Block) (h : s.st = .idle) (hk : s.keyValid = false) :
    commandEdge S (.enc b) s = reject .keyNotLoaded s := by
  simp [commandEdge, blockCommandEdge, rejectedEdge, stateEdge, h, hk]

theorem commandEdge_dec_noKey (b : Block) (h : s.st = .idle) (hk : s.keyValid = false) :
    commandEdge S (.dec b) s = reject .keyNotLoaded s := by
  simp [commandEdge, blockCommandEdge, rejectedEdge, stateEdge, h, hk]

theorem commandEdge_loadkey_idle (k : KeyBits) (h : s.st = .idle) :
    commandEdge S (.loadkey k) s = clearError (writeKey (keyFragments k) s) := by
  simp [commandEdge, loadkeyEdge, h]

theorem commandEdge_illegal_idle (h : s.st = .idle) :
    commandEdge S .illegal s = reject .illegal s := by
  simp [commandEdge, rejectedEdge, stateEdge, h]

/-- Everything a command can do at its edge. -/
theorem commandEdge_cases (S : SBoxTable) (i : Instr) (s : State) :
    (s.st = .run ∧ commandEdge S i s = reject (runCode i) (runEdge S s)) ∨
    (s.st = .idle ∧ s.keyValid = true ∧ ∃ b, i = .enc b ∧
      commandEdge S i s = clearError (latchBlock .encrypt (leftHalf b) (rightHalf b) s)) ∨
    (s.st = .idle ∧ s.keyValid = true ∧ ∃ b, i = .dec b ∧
      commandEdge S i s = clearError (latchBlock .decrypt (leftHalf b) (rightHalf b) s)) ∨
    (s.st = .idle ∧ s.keyValid = false ∧ (∃ b, i = .enc b ∨ i = .dec b) ∧
      commandEdge S i s = reject .keyNotLoaded s) ∨
    (s.st = .idle ∧ ∃ k, i = .loadkey k ∧
      commandEdge S i s = clearError (writeKey (keyFragments k) s)) ∨
    (s.st = .idle ∧ i = .illegal ∧ commandEdge S i s = reject .illegal s) := by
  cases hst : s.st with
  | run => exact .inl ⟨rfl, commandEdge_run hst⟩
  | idle =>
    cases i with
    | enc b =>
      cases hk : s.keyValid
      · exact .inr (.inr (.inr (.inl ⟨rfl, rfl, ⟨b, .inl rfl⟩, commandEdge_enc_noKey b hst hk⟩)))
      · exact .inr (.inl ⟨rfl, rfl, b, rfl, commandEdge_enc_accepted b hst hk⟩)
    | dec b =>
      cases hk : s.keyValid
      · exact .inr (.inr (.inr (.inl ⟨rfl, rfl, ⟨b, .inr rfl⟩, commandEdge_dec_noKey b hst hk⟩)))
      · exact .inr (.inr (.inl ⟨rfl, rfl, b, rfl, commandEdge_dec_accepted b hst hk⟩))
    | loadkey k =>
      exact .inr (.inr (.inr (.inr (.inl ⟨rfl, k, rfl, commandEdge_loadkey_idle k hst⟩))))
    | illegal => exact .inr (.inr (.inr (.inr (.inr ⟨rfl, rfl, commandEdge_illegal_idle hst⟩))))

/-! ### One edge -/

theorem clockEdge_eq_with (e : EdgeInput) (s : State) :
    clockEdge e s = clockEdgeWith Config.sbox e s := by
  simp only [clockEdge, clockEdgeWith, edgeBy]
  split
  · rfl
  · cases decode e <;> simp [exec_eq_execWith]

theorem step_eq_clockEdge (s : State) : step s = clockEdge (nextSample s) (dropSample s) := rfl

theorem clockEdgeWith_reset (h : e.rst = true) : clockEdgeWith S e s = .next (resetEdge s) := by
  simp [clockEdgeWith, edgeBy, h]

/-- The state after an edge with `rst = 0` in an engine that has been reset. -/
def edgeState (S : SBoxTable) (e : EdgeInput) (s : State) : State :=
  match decode e with
  | .instr i => commandEdge S i s
  | .reject _ => stateEdge S s

theorem clockEdgeWith_no_reset (h : e.rst = false) :
    clockEdgeWith S e s = clocked (edgeState S e) s := by
  unfold clockEdgeWith edgeBy edgeState
  rw [h]
  cases decode e <;> simp [execWith_eq_clocked, noCommandEdge, clocked]

/-- Everything an edge can do: reset, or the edge's own effect in an engine that has been reset. -/
theorem clockEdgeWith_eq_next_iff :
    clockEdgeWith S e s = .next t ↔
      (e.rst = true ∧ t = resetEdge s) ∨
      (e.rst = false ∧ s.unreset = false ∧ t = edgeState S e s) := by
  cases h : e.rst
  · simp [clockEdgeWith_no_reset h, clocked_eq_next_iff]
  · rw [clockEdgeWith_reset h]
    constructor
    · intro ht
      injection ht with ht
      exact .inl ⟨rfl, ht.symm⟩
    · rintro (⟨-, rfl⟩ | ⟨hf, -⟩)
      · rfl
      · cases hf

theorem clockEdge_eq_next_iff :
    clockEdge e s = .next t ↔
      (e.rst = true ∧ t = resetEdge s) ∨
      (e.rst = false ∧ s.unreset = false ∧ t = edgeState Config.sbox e s) := by
  rw [clockEdge_eq_with, clockEdgeWith_eq_next_iff]

/-- Where an edge has a meaning, the contract goes on from its state. -/
theorem afterEdge_of_next (h : clockEdge e s = .next t) : afterEdge e s = t := by
  simp [afterEdge, h]

/-- Before the first reset an edge without reset leaves the contract where it was (R182). -/
theorem afterEdge_of_unreset (hu : s.unreset = true) (hr : e.rst = false) : afterEdge e s = s := by
  simp [afterEdge, clockEdge_eq_with, clockEdgeWith_no_reset hr, clocked_of_unreset hu]

/-- An edge without a command does what the state requires. -/
theorem edgeState_noCommand (h : e.cmdValid = false) : edgeState S e s = stateEdge S s := by
  simp [edgeState, decode, h]

theorem edgeState_command (h : decode e = .instr i) : edgeState S e s = commandEdge S i s := by
  simp [edgeState, h]

/-! ### The ports -/

/-- The same registers with other samples on the ports. -/
def withInputs (l : List EdgeInput) (s : State) : State := { s with inputs := l }

theorem runEdge_withInputs (l : List EdgeInput) :
    runEdge S (withInputs l s) = withInputs l (runEdge S s) := by
  unfold runEdge withInputs
  dsimp only
  split <;> rfl

theorem stateEdge_withInputs (l : List EdgeInput) :
    stateEdge S (withInputs l s) = withInputs l (stateEdge S s) := by
  unfold stateEdge
  cases h : s.st
  · simp [withInputs, h]
  · simpa [withInputs, h] using runEdge_withInputs (S := S) (s := s) l

theorem commandEdge_withInputs (l : List EdgeInput) :
    commandEdge S i (withInputs l s) = withInputs l (commandEdge S i s) := by
  have hst : (withInputs l s).st = s.st := rfl
  have hkv : (withInputs l s).keyValid = s.keyValid := rfl
  cases i <;>
    simp only [commandEdge, blockCommandEdge, loadkeyEdge, rejectedEdge, hst, hkv,
      stateEdge_withInputs] <;>
    first
      | rfl
      | (cases s.st <;> first | rfl | (cases s.keyValid <;> rfl))

/-- No edge reads or writes what waits on the ports for later edges. -/
theorem edgeState_withInputs (l : List EdgeInput) :
    edgeState S e (withInputs l s) = withInputs l (edgeState S e s) := by
  unfold edgeState
  cases decode e with
  | instr i => exact commandEdge_withInputs l
  | reject _ => exact stateEdge_withInputs l

theorem edgeState_inputs : (edgeState S e s).inputs = s.inputs := by
  have h := edgeState_withInputs (S := S) (e := e) (s := s) s.inputs
  have hs : withInputs s.inputs s = s := rfl
  rw [hs] at h
  rw [h]
  rfl

/-! ### Runs -/

@[simp] theorem andThen_next {σ τ : Type} (a : σ) (f : σ → Host.Outcome τ Fault Refusal) :
    andThen (.next a) f = f a := rfl

/-- A run of the machine takes one edge and goes on. -/
theorem runOn_nil (s : State) : runOn [] s = .next s := rfl

theorem coreRun_succ (M : Host.Core) (k : Nat) (a : M.State) :
    M.run (k + 1) a = match M.step a with
      | .next b => M.run k b
      | .fault r => .fault r
      | .refused r => .refused r := rfl

theorem coreRun_next (M : Host.Core) {k : Nat} {a b : M.State} (h : M.step a = .next b) :
    M.run (k + 1) a = M.run k b := by rw [coreRun_succ, h]

theorem coreRun_refused (M : Host.Core) {k : Nat} {a : M.State} {r : M.Refusal}
    (h : M.step a = .refused r) : M.run (k + 1) a = .refused r := by rw [coreRun_succ, h]

theorem runOn_cons (e : EdgeInput) (es : List EdgeInput) (s : State) :
    runOn (e :: es) s = andThen (clockEdge e s) (runOn es) := by
  have hnext : ∀ t : State, clockEdge e (withInputs (es ++ s.inputs) s) = .next t →
      runOn (e :: es) s = Host.Core.run Sys2Proof.core es.length t :=
    fun t h => coreRun_next Sys2Proof.core h
  have hrefused : ∀ r, clockEdge e (withInputs (es ++ s.inputs) s) = .refused r →
      runOn (e :: es) s = .refused r :=
    fun r h => coreRun_refused Sys2Proof.core h
  simp only [clockEdge_eq_with] at hnext hrefused ⊢
  cases hr : e.rst
  · rw [clockEdgeWith_no_reset hr] at hnext hrefused ⊢
    cases hu : s.unreset
    · have hu' : (withInputs (es ++ s.inputs) s).unreset = false := hu
      rw [hnext _ (clocked_of_unreset_false hu'), clocked_of_unreset_false hu, edgeState_withInputs,
        andThen_next, ← edgeState_inputs (S := Config.sbox) (e := e) (s := s)]
      rfl
    · have hu' : (withInputs (es ++ s.inputs) s).unreset = true := hu
      rw [hrefused _ (clocked_of_unreset hu'), clocked_of_unreset hu]
      rfl
  · rw [hnext _ (clockEdgeWith_reset hr), clockEdgeWith_reset hr]
    rfl

/-- A run of the machine on a list of samples is the run of its edges. -/
theorem runOn_eq_runEdges (es : List EdgeInput) (s : State) :
    runOn es s = runEdges Config.sbox es s := by
  induction es generalizing s with
  | nil => rfl
  | cons e es ih =>
    rw [runOn_cons, clockEdge_eq_with]
    show _ = andThen (clockEdgeWith Config.sbox e s) (runEdges Config.sbox es)
    congr 1
    funext s'
    exact ih s'

end Sys2Proof.Machine
end

