-- ==== Sys2Proof/Laws/Host.lean ====
section
/-!
SUPPORT. The key bytes a host puts on the key port: bit by bit, then byte by byte (spec/20_memory.md
R46), so that no proof unfolds `packKey`.
-/

namespace Sys2Proof.Machine

/-- The bits after packing further bytes behind `acc`: the last byte lowest, `acc` above them. -/
theorem getLsbD_packBytes (bytes : List Byte) (acc : KeyBits) {i : Nat} (hi : i < 256) :
    (bytes.foldl (fun (n : KeyBits) b => (n <<< 8) ||| b.setWidth 256) acc).getLsbD i =
      if i < 8 * bytes.length then (bytes.getD (bytes.length - 1 - i / 8) 0).getLsbD (i % 8)
      else acc.getLsbD (i - 8 * bytes.length) := by
  induction bytes generalizing acc with
  | nil => simp
  | cons b bytes ih =>
    rw [List.foldl_cons, ih]
    simp only [List.length_cons]
    by_cases h : i < 8 * bytes.length
    · rw [if_pos h, if_pos (by omega),
        show bytes.length + 1 - 1 - i / 8 = (bytes.length - 1 - i / 8) + 1 by omega,
        List.getD_cons_succ]
    · rw [if_neg h, BitVec.getLsbD_or, BitVec.getLsbD_shiftLeft, BitVec.getLsbD_setWidth]
      by_cases h8 : i < 8 * (bytes.length + 1)
      · rw [if_pos h8, show bytes.length + 1 - 1 - i / 8 = 0 by omega, List.getD_cons_zero,
          show i - 8 * bytes.length = i % 8 by omega]
        simp [show i % 8 < 8 by omega, show i % 8 < 256 by omega]
      · rw [if_neg h8, show i - 8 * (bytes.length + 1) = i - 8 * bytes.length - 8 by omega,
          BitVec.getLsbD_of_ge b _ (by omega)]
        simp [show ¬ i - 8 * bytes.length < 8 by omega, show i - 8 * bytes.length < 256 by omega]

/-- Key byte `j` on the port is byte `j` of the host's 32 bytes (R46). -/
theorem keyByte_packKey {bytes : List Byte} (h : bytes.length = 32) (j : Fin 32) :
    keyByte (packKey bytes) j = bytes.getD j.val 0 := by
  have hj := j.isLt
  apply BitVec.eq_of_getLsbD_eq
  intro i hi
  rw [keyByte, BitVec.getLsbD_extractLsb', packKey, getLsbD_packBytes _ _ (by omega), h,
    if_pos (by omega), show 32 - 1 - (248 - 8 * j.val + i) / 8 = j.val by omega,
    show (248 - 8 * j.val + i) % 8 = i by omega]
  simp [hi]

end Sys2Proof.Machine
end

