-- ==== Sys2Proof/Laws/PerInstr.lean ====
section
/-!
SUPPORT. Statements about every command as syntax, one lemma for each constructor. The family
`Encoding`: a command's sample carries its 3-bit word of spec/30_encoding.md R64, with `rst = 0` (R69)
and its operand on the port of R62 or R63.
-/

namespace Sys2Proof.Laws

/-- A sample made from a 3-bit word carries that word, with `cmd_valid` as its bit 2 (R61). -/
theorem cmd3_sampleOfCmd3 (w : BitVec 3) : cmd3 (sampleOfCmd3 w) = w := by
  revert w
  decide

/-- The operand ports are no part of the 3-bit word (R61). -/
theorem cmd3_operands (e : EdgeInput) (b : Block) (k : KeyBits) :
    cmd3 { e with blockIn := b, keyIn := k } = cmd3 e := rfl

/-- An encoded command carries the word of the command map (R64). -/
theorem cmd3_encode (i : Instr) : cmd3 (encode i) = encodeCmd3 i :=
  (cmd3_operands _ _ _).trans (cmd3_sampleOfCmd3 (encodeCmd3 i))

end Sys2Proof.Laws

namespace Sys2Proof.Laws.Encoding

def Statement (i : Instr) : Prop :=
  i.wellFormed = true ∧ (encode i).wellFormed = true ∧ (encode i).rst = false ∧
  cmd3 (encode i) = encodeCmd3 i ∧
  (encode i).blockIn = i.blockOperand ∧ (encode i).keyIn = i.keyOperand

theorem enc (block : Block) : Statement (.enc block) :=
  ⟨rfl, rfl, rfl, cmd3_encode _, rfl, rfl⟩

theorem dec (block : Block) : Statement (.dec block) :=
  ⟨rfl, rfl, rfl, cmd3_encode _, rfl, rfl⟩

theorem loadkey (key : KeyBits) : Statement (.loadkey key) :=
  ⟨rfl, rfl, rfl, cmd3_encode _, rfl, rfl⟩

theorem illegal : Statement .illegal := ⟨rfl, rfl, rfl, cmd3_encode _, rfl, rfl⟩

end Sys2Proof.Laws.Encoding
end

