-- ==== Sys2Proof/Tests/Slice0.lean ====
section
/-!
SUPPORT. Tests of the model, and a witness for each obligation with hypotheses. Every expected value
comes from spec/95_test_vectors.md (the id stands in the docstring) or from the encoding tables of
spec/30_encoding.md. The cipher values hold under the spec's two test tables, never for the real one.
-/

namespace Sys2Proof.Tests

open Sys2Proof Sys2Proof.Machine

/-! ### Helpers -/

/-- TS_ID (spec/95_test_vectors.md section 0). -/
def tableId : SBoxTable := fun _ n => n

/-- TS_A (spec/95_test_vectors.md section 0). -/
def tableA : SBoxTable := fun r n => ⟨(n.val + r.val) % 16, Nat.mod_lt _ (by decide)⟩

/-- TS_A with the rows 5 to 7 replaced by `15 - n` (V-MIX-9). -/
def tableAOther : SBoxTable := fun r n => if r.val ≤ 4 then tableA r n else n.rev

/-- SECRET on `key_in` (spec/95_test_vectors.md section 0). -/
def secret : KeyBits := 0x5345435245545F4B45595F574954485F4C454E4754485F33325F42595445535F#256

/-- The fragments of SECRET (V-KEY-1). -/
def secretFragments : Vector Word 8 :=
  #v[0x53454352, 0x45545F4B, 0x45595F57, 0x4954485F, 0x4C454E47, 0x54485F33, 0x325F4259, 0x5445535F]

/-- IDLE with SECRET loaded, an earlier result in `DOUT` and an old error code. -/
def keyed : State :=
  { State.reset with key := secretFragments, keyValid := true, dout := 5, right := 5, done := true,
                     err := .illegal }

/-- RUN at round `rc` with SECRET, the halves `l` and `r`, and an old error code. -/
def running (rc : BitVec 5) (l r : Word) : State :=
  { State.reset with key := secretFragments, keyValid := true, st := .run, rc := rc, left := l,
                     right := r, dout := 5, err := .keyNotLoaded }

/-- The state a host looks at, if the outcome is one. -/
def stateOf (o : Host.Outcome State Fault Refusal) : Option State :=
  match o with
  | .next s => some s
  | .fault _ => none
  | .refused _ => none

/-- A sample with `rst = 0`, a command and operands on both ports. -/
def sample (cmd : BitVec 2) : EdgeInput :=
  { rst := false, cmdValid := true, cmd := cmd, blockIn := 0x0123456789ABCDEF#64, keyIn := secret }

/-- The state whose ports show `e` next. -/
def facing (e : EdgeInput) (s : State) : State := { s with inputs := [e] }

/-! ### Well-formedness: each check refuses an ill-formed term -/

/-- R69: no command on a reset edge. -/
theorem test_wellFormed_edge : ({ sample 0 with rst := true } : EdgeInput).wellFormed = false ∧
    (sample 0).wellFormed = true ∧ EdgeInput.reset.wellFormed = true := by decide

/-- R69: LOADKEY takes 64 hex digits. -/
theorem test_wellFormed_loadkey : (Stmt.loadkey (List.replicate 63 1)).wellFormed = false ∧
    (Stmt.loadkey (List.replicate 64 1)).wellFormed = true := by decide

/-- R69: ENC takes 16 hex digits. -/
theorem test_wellFormed_enc : (Stmt.enc (List.replicate 17 1)).wellFormed = false ∧
    (Stmt.enc (List.replicate 16 1)).wellFormed = true := by decide

/-- R69: DEC takes 16 hex digits. -/
theorem test_wellFormed_dec : (Stmt.dec []).wellFormed = false ∧
    (Stmt.dec (List.replicate 16 1)).wellFormed = true := by decide

/-! ### Decoding: the words of spec/30_encoding.md R64, bit by bit -/

theorem test_decode_enc :
    decode ⟨false, true, 0b00, 0x0123456789ABCDEF, secret⟩ = .instr (.enc 0x0123456789ABCDEF) ∧
    decodeTableWord 8 0b100 = some (.enc 0) := by decide

theorem test_decode_dec :
    decode ⟨false, true, 0b01, 0x0123456789ABCDEF, secret⟩ = .instr (.dec 0x0123456789ABCDEF) ∧
    decodeTableWord 8 0b101 = some (.dec 0) := by decide

theorem test_decode_loadkey :
    decode ⟨false, true, 0b10, 0x0123456789ABCDEF, secret⟩ = .instr (.loadkey secret) ∧
    decodeTableWord 8 0b110 = some (.loadkey 0) := by decide

theorem test_decode_illegal :
    decode ⟨false, true, 0b11, 0x0123456789ABCDEF, secret⟩ = .instr .illegal ∧
    decodeTableWord 8 0b111 = some .illegal := by decide

/-- R66: without `cmd_valid` the sample is no command, whatever `cmd` is. -/
theorem test_decode_noCommand :
    decode ⟨false, false, 0b10, 0, secret⟩ = .reject .noCommand ∧
    decodeWord 8 0b010 = .reject .noCommand ∧ decodeWord 8 0b1100 = .reject .wordTooWide := by decide

/-! ### The datapath -/

/-- V-SBX-3, V-SBX-4, V-SBX-5. -/
theorem test_sboxLookup : sboxLookup tableA 3 0xE = 1 ∧ sboxLookup tableA 4 0xF = 3 ∧
    sboxLookup tableA 7 9 = 0 := by decide

/-- spec/95_test_vectors.md 2.2. -/
theorem test_rotl8 : rotl8 0x80 11 = 0x04 ∧ rotl8 0xA5 11 = 0x2D ∧ rotl8 0xE0 11 = 0x07 := by decide

/-- V-MIX-4 and V-MIX-7 under TS_A, V-MIX-6 under TS_ID. -/
theorem test_mix : mix tableA 0x01234567 0x89ABCDEF = 0x5C8EB154 ∧
    mix tableA 0xFEDCBA98 0x76543210 = 0xB31278E6 ∧ mix tableId 0x000000FF 1 = 0x00000800 := by decide

/-- V-RND-3 and V-RND-4. -/
theorem test_round :
    feistelRound tableA 0x01234567 0x89ABCDEF 0x53454352 false = (0x89ABCDEF, 0xEF3BE4CC) ∧
    feistelRound tableA 0x01234567 0x89ABCDEF 0x53454352 true = (0xEF3BE4CC, 0x89ABCDEF) := by decide

/-- V-KS-1, the worked example of R124. -/
theorem test_ks : ks .encrypt 24 = 7 ∧ ks .decrypt 8 = 7 ∧ ks .decrypt 31 = 0 ∧ ks .encrypt 11 = 3 := by
  decide

/-! ### The commands and the edges, one step each -/

/-- V-CMD-5: accepted, `DONE` and `ERR` cleared. -/
theorem test_enc_accepted : (stateOf (exec (.enc 0x0123456789ABCDEF) keyed)).map (fun t =>
    (t.st, t.left, t.right, t.done, t.err)) =
    some (.run, 0x01234567, 0x89ABCDEF, false, .none) := by decide

/-- V-CMD-1. -/
theorem test_enc_noKey :
    stateOf (exec (.enc 7) State.reset) = some { State.reset with err := .keyNotLoaded } := by decide

/-- V-CMD-6. -/
theorem test_dec_accepted : (stateOf (exec (.dec 0x0123456789ABCDEF) keyed)).map (fun t =>
    (t.st, t.dir, t.left, t.right, t.rc)) =
    some (.run, .decrypt, 0x01234567, 0x89ABCDEF, 0) := by decide

/-- V-CMD-2. -/
theorem test_dec_noKey :
    (stateOf (exec (.dec 7) State.reset)).map (fun t => (t.err, t.st)) =
      some (.keyNotLoaded, .idle) := by decide

/-- V-CMD-4, V-KEY-1. -/
theorem test_loadkey : (stateOf (exec (.loadkey secret) State.reset)).map (fun t =>
    (t.key, t.keyValid, t.err)) = some (secretFragments, true, .none) := by decide

/-- V-CMD-7 at round 0 of V-BLK-8: the round is performed, `KEY` stays. -/
theorem test_loadkey_busy : (stateOf (execWith tableA (.loadkey 0) (running 0 0 0))).map (fun t =>
    (t.left, t.right, t.rc, t.err, t.key)) =
    some (0x00000000, 0xA2BA3334, 1, .busy, secretFragments) := by decide

/-- V-CMD-3. -/
theorem test_illegal_idle :
    stateOf (exec .illegal keyed) = some { keyed with err := .illegal } := by decide

/-- V-CMD-8 at round 1 of V-BLK-8. -/
theorem test_illegal_run : (stateOf (execWith tableA .illegal (running 1 0 0xA2BA3334))).map (fun t =>
    (t.left, t.right, t.rc, t.err)) = some (0xA2BA3334, 0x4F80AD1D, 2, .illegal) := by decide

/-- V-CMD-9 at round 31 of V-BLK-8: the result of V-BLK-1a; `ERR` is not cleared. -/
theorem test_completion : (stateOf (stepWith tableA (facing EdgeInput.idle
    (running 31 0x0DDD648C 0x4850DB32)))).map (fun t => (t.st, t.dout, t.done, t.err, t.rc)) =
    some (.idle, 0xE998ED494850DB32, true, .keyNotLoaded, 0) := by decide

/-- The last round of V-BLK-9, in the direction of decryption, with V-CMD-10's command at its edge. -/
theorem test_completion_dec : (stateOf (stepWith tableA (facing (sample 0b00)
    { running 31 0xA2BA3334 0x00000000 with dir := .decrypt }))).map (fun t =>
      (t.st, t.dout, t.err)) = some (.idle, 0x0000000000000000, .busy) := by decide

/-- V-CMD-12: reset wins over everything. -/
theorem test_reset_edge :
    stateOf (step (facing { sample 0b11 with rst := true } (running 9 1 2))) = some State.reset := by
  decide

/-! ### The host -/

/-- V-SRC-3: a buffer of 7 bytes is turned away with its length, whichever check comes first. -/
theorem test_host_length :
    hostChecks (List.replicate 7 0) (List.replicate 32 0) = some (.invalidBufferLength 7) := by
  unfold hostChecks
  cases Config.hostChecksKeyFirst <;> rfl

/-- V-SRC-2: an empty buffer presents no block command; R45, R46: byte 0 is the most significant. -/
theorem test_host_chunks : hostActs .encrypt [] (List.replicate 32 7) = [] ∧
    blocksOf [0x01, 0x23, 0x45, 0x67, 0x89, 0xAB, 0xCD, 0xEF] = [0x0123456789ABCDEF] ∧
    blockBytes 0x0123456789ABCDEF = [0x01, 0x23, 0x45, 0x67, 0x89, 0xAB, 0xCD, 0xEF] ∧
    packKey [0x53, 0x45, 0x43] = 0x534543 := by decide

/-! ### Witnesses: for each obligation with hypotheses, states and operands that meet them all -/

/-- `n` edges without a command. -/
def idles (n : Nat) : List EdgeInput := List.replicate n EdgeInput.idle

/-- Samples whose ports carry a command at every edge. -/
def busyEdges (n : Nat) : List EdgeInput := List.replicate n (sample 0b11)

theorem noReset_replicate (n : Nat) (e : EdgeInput) (h : e.rst = false) :
    noReset (List.replicate n e) := by
  intro x hx
  rw [List.eq_of_mem_replicate hx, h]

theorem witness_DecoderAndEncoderAgree :
    (Instr.dec 5).wellFormed = true ∧ decode (sample 0b10) = .instr (.loadkey secret) ∧
    (∃ why, decode EdgeInput.idle = .reject why) := ⟨rfl, rfl, _, rfl⟩

theorem witness_StepRunsTheDecodedCommand :
    ((facing (sample 0b01) keyed).inputs = [sample 0b01] ∧ (sample 0b01).rst = false ∧
      decode (sample 0b01) = .instr (.dec 0x0123456789ABCDEF)) ∧
    decodeTableWord 8 0b111 = some .illegal := by decide

/-- A reset edge in RUN with a command on the ports. -/
theorem witness_ResetEdgeGivesResetValues :
    ({ sample 0b00 with rst := true } : EdgeInput).rst = true ∧ (running 31 1 2).st = .run := by decide

theorem witness_UnresetEngineIsRefused :
    (nextSample (State.powerUp (facing (sample 0b00) keyed))).rst = false ∧
    (∃ t, step (State.powerUp (facing EdgeInput.reset (running 31 1 2))) = .next t) := ⟨rfl, _, rfl⟩

theorem witness_NothingBeforeAResetMatters :
    EdgeInput.reset.rst = true ∧ keyed.inputs = (State.powerUp (running 3 1 2)).inputs ∧
    keyed ≠ State.powerUp (running 3 1 2) := by decide

theorem witness_MixCornerCases : add32 0xFFFFFFFF 1 = 0 := by decide

/-- Two tables that differ, and agree on the rows 0 to 4. -/
theorem witness_MixReadsRowsZeroToFour :
    (∀ (r : Fin 8) (n : Fin 16), r.val ≤ 4 → tableA r n = tableAOther r n) ∧
    tableA 5 0 ≠ tableAOther 5 0 := by decide

theorem witness_EngineIgnoresRowsFiveToSeven :
    (∀ (r : Fin 8) (n : Fin 16), r.val ≤ 4 → tableA r n = tableAOther r n) ∧
    tableA 7 0 ≠ tableAOther 7 0 := by decide

/-- The premises of (c) and (d) of R113. -/
theorem witness_RoundCornerCases :
    (0x089019A1 : Word) = mix tableA 0 0 ∧ mix tableId 0 0 = 0 := by decide

theorem witness_KeyScheduleRom : (0 : BitVec 5).toNat < 31 ∧ (23 : BitVec 5).toNat < 31 ∧
    (7 : BitVec 5).toNat < 31 ∧ (30 : BitVec 5).toNat < 31 := by decide

theorem witness_BlockCommandsLatchTheBlock :
    keyed.unreset = false ∧ keyed.st = .idle ∧ keyed.keyValid = true := by decide

theorem witness_LoadkeyEdge :
    (State.reset.unreset = false ∧ State.reset.st = .idle) ∧
    ((running 31 1 2).unreset = false ∧ (running 31 1 2).st = .run) := by decide

theorem witness_ReservedCodeEdge :
    (keyed.unreset = false ∧ keyed.st = .idle) ∧
    ((running 31 1 2).unreset = false ∧ (running 31 1 2).st = .run) := by decide

theorem witness_LoadedFragmentsAreBigEndian :
    ∃ t, keyed.st = .idle ∧ exec (.loadkey secret) keyed = .next t := ⟨_, rfl, rfl⟩

theorem witness_LatchedHalvesAreBigEndian :
    keyed.unreset = false ∧ keyed.st = .idle ∧ keyed.keyValid = true := by decide

theorem witness_BlockCommandNeedsKey :
    State.reset.unreset = false ∧ State.reset.st = .idle ∧ State.reset.keyValid = false := by decide

theorem witness_CommandsInRunAreBusy :
    (running 0 1 2).unreset = false ∧ (running 0 1 2).st = .run ∧ (running 31 1 2).st = .run ∧
    Instr.loadkey 3 ≠ .illegal ∧ Instr.enc 3 ≠ .illegal ∧ Instr.dec 3 ≠ .illegal := by decide

/-- One witness for each of the three clauses. -/
theorem witness_ErrorPriority :
    (∃ t, exec .illegal (running 31 1 2) = .next t) ∧
    (∃ t, (nextSample (facing EdgeInput.reset keyed)).rst = true ∧
      step (facing EdgeInput.reset keyed) = .next t) ∧
    ((running 31 1 2).unreset = false ∧ (running 31 1 2).st = .run ∧ (running 31 1 2).rc = 31) :=
  ⟨⟨_, rfl⟩, ⟨_, rfl, rfl⟩, rfl, rfl, rfl⟩

theorem witness_RejectionsArePrecise :
    (∃ t, exec (.enc 3) State.reset = .next t ∧ t.err ≠ .none) ∧
    (∃ t, exec (.loadkey 3) (running 31 1 2) = .next t ∧ t.err ≠ .none) :=
  ⟨⟨_, rfl, by decide⟩, ⟨_, rfl, by intro h; cases h⟩⟩

theorem witness_ErrorCodePersists :
    (∃ t, step (facing (sample 0b11) State.reset) = .next t ∧
      t.err ≠ (facing (sample 0b11) State.reset).err) ∧
    (keyed.unreset = false ∧ accepts (.enc 3) keyed = true) ∧
    (State.reset.unreset = false ∧ accepts (.enc 3) State.reset = false) :=
  ⟨⟨_, rfl, by decide⟩, by decide, by decide⟩

theorem witness_ContractKeepsErrorsAway :
    (contractKept (sample 0b00) { keyed with err := .none } = true ∧
      contractKept EdgeInput.idle { running 31 1 2 with err := .none } = true ∧
      contractKept (sample 0b10) State.reset = true ∧ State.reset.unreset = false ∧
      State.reset.err = .none) ∧
    (contractKept EdgeInput.reset (State.powerUp (running 31 1 2)) = true ∧
      EdgeInput.reset.rst = true) ∧
    (noReset (idles 2) ∧ hostKeepsContract (idles 2) (State.powerUp (running 31 1 2))) ∧
    (noReset (idles 2) ∧
      hostKeepsContract (idles 2 ++ [EdgeInput.reset, sample 0b10, sample 0b00])
        (State.powerUp (running 31 1 2))) :=
  ⟨by decide, by decide, ⟨noReset_replicate _ _ rfl, rfl, rfl, trivial⟩, noReset_replicate _ _ rfl,
    rfl, rfl, rfl, rfl, rfl, trivial⟩

/-- R147: a command before the first reset breaks the contract, also after an edge without one, and so
does ENC without a key after the reset. -/
theorem test_contract_broken :
    ¬ hostKeepsContract [EdgeInput.idle, sample 0b10] (State.powerUp keyed) ∧
    ¬ hostKeepsContract [EdgeInput.idle, EdgeInput.reset, sample 0b00] (State.powerUp keyed) :=
  ⟨fun h => Bool.false_ne_true h.2.1, fun h => Bool.false_ne_true h.2.2.1⟩

theorem witness_EdgeWithoutCommand :
    (keyed.unreset = false ∧ keyed.st = .idle) ∧
    ((running 31 1 2).unreset = false ∧ (running 31 1 2).st = .run) ∧
    EdgeInput.idle.rst = false ∧ EdgeInput.idle.cmdValid = false ∧
    ({ sample 0b10 with cmdValid := false } : EdgeInput).rst = false ∧
    ({ sample 0b10 with cmdValid := false } : EdgeInput).cmdValid = false := by decide

/-- The first and the last of the rounds the clause covers. -/
theorem witness_RunEdgePerformsRound :
    (running 0 1 2).unreset = false ∧ (sample 0b11).rst = false ∧ (running 0 1 2).st = .run ∧
    (running 0 1 2).rc ≠ 31 ∧ (running 30 1 2).st = .run ∧ (running 30 1 2).rc ≠ 31 := by decide

theorem witness_CompletionEdge :
    (running 31 1 2).unreset = false ∧ (sample 0b11).rst = false ∧ (running 31 1 2).st = .run ∧
    (running 31 1 2).rc = 31 := by decide

theorem witness_EdgeIsTheStepFunction :
    keyed.unreset = false ∧ (running 31 1 2).unreset = false := by decide

/-- No edge and 31 edges after the accepting one, commands presented at all of them. -/
theorem witness_RoundsRunInOrder :
    keyed.unreset = false ∧ keyed.st = .idle ∧ keyed.keyValid = true ∧ (sample 0b01).rst = false ∧
    decode (sample 0b01) = .instr (blockCommand .decrypt 0x0123456789ABCDEF) ∧
    (noReset (busyEdges 0) ∧ (busyEdges 0).length ≤ 31) ∧
    (noReset (busyEdges 31) ∧ (busyEdges 31).length ≤ 31) :=
  ⟨rfl, rfl, rfl, rfl, rfl, ⟨noReset_replicate _ _ rfl, by decide⟩,
    noReset_replicate _ _ rfl, by decide⟩

theorem witness_BlockCompletesAfterThirtyTwoEdges :
    keyed.unreset = false ∧ keyed.st = .idle ∧ keyed.keyValid = true ∧ (sample 0b00).rst = false ∧
    decode (sample 0b00) = .instr (blockCommand .encrypt 0x0123456789ABCDEF) ∧
    noReset (busyEdges 32) ∧ (busyEdges 32).length = 32 :=
  ⟨rfl, rfl, rfl, rfl, rfl, noReset_replicate _ _ rfl, by decide⟩

/-- One witness for each clause, the first at both ends of its range. -/
theorem witness_NextCommandAfterThirtyThreeEdges :
    keyed.unreset = false ∧ keyed.st = .idle ∧ keyed.keyValid = true ∧ (sample 0b00).rst = false ∧
    decode (sample 0b00) = .instr (blockCommand .encrypt 0x0123456789ABCDEF) ∧
    (noReset (idles 0) ∧ (idles 0).length ≤ 31) ∧ (noReset (idles 31) ∧ (idles 31).length ≤ 31) ∧
    (noReset (idles 32) ∧ (idles 32).length = 32) ∧ Instr.loadkey 3 ≠ .illegal :=
  ⟨rfl, rfl, rfl, rfl, rfl, ⟨noReset_replicate _ _ rfl, by decide⟩,
    ⟨noReset_replicate _ _ rfl, by decide⟩, ⟨noReset_replicate _ _ rfl, by decide⟩, by decide⟩

/-- Two engines that differ but for the key, one idle and one harassed during its block. -/
theorem witness_ResultDependsOnlyOnBlockAndKey :
    let other : State := { keyed with dout := 77, left := 8, err := .none, done := false }
    keyed.unreset = false ∧ keyed.st = .idle ∧ keyed.keyValid = true ∧
    other.unreset = false ∧ other.st = .idle ∧ other.keyValid = true ∧ keyed.key = other.key ∧
    keyed ≠ other ∧ (sample 0b00).rst = false ∧
    decode (sample 0b00) = .instr (blockCommand .encrypt 0x0123456789ABCDEF) ∧
    noReset (idles 32) ∧ (idles 32).length = 32 ∧ noReset (busyEdges 32) ∧
    (busyEdges 32).length = 32 :=
  ⟨rfl, rfl, rfl, rfl, rfl, rfl, rfl, by decide, rfl, rfl, noReset_replicate _ _ rfl, by decide,
    noReset_replicate _ _ rfl, by decide⟩

/-- Two engines and samples that differ in all their data. -/
theorem witness_ControlIsDataIndependent :
    [sample 0b00].map EdgeInput.controlPart =
      [({ sample 0b00 with blockIn := 1, keyIn := 2 } : EdgeInput)].map EdgeInput.controlPart ∧
    controlPart (running 31 1 2) = controlPart { running 31 3 4 with key := State.reset.key } ∧
    running 31 1 2 ≠ { running 31 3 4 with key := State.reset.key } ∧
    (∃ t, runOn [sample 0b00] (running 31 1 2) = .next t) :=
  ⟨by decide, by decide, by decide, _, rfl⟩

theorem witness_NewKeyIsUsedAtOnce :
    keyed.unreset = false ∧ keyed.st = .idle ∧ noReset (busyEdges 32) ∧ (busyEdges 32).length = 32 :=
  ⟨rfl, rfl, noReset_replicate _ _ rfl, by decide⟩

/-- A command that is rejected, an edge without one, and a reset edge with a command the state would
accept. -/
theorem witness_OperandsMatterOnlyWhenAccepted :
    ((sample 0b00).controlPart = ({ sample 0b00 with blockIn := 1 } : EdgeInput).controlPart ∧
      ∀ i, decode (sample 0b00) = .instr i → accepts i (running 5 1 2) = false) ∧
    (EdgeInput.idle.controlPart = ({ EdgeInput.idle with keyIn := 1 } : EdgeInput).controlPart ∧
      ∀ i, decode EdgeInput.idle = .instr i → accepts i keyed = false) ∧
    (({ sample 0b10 with rst := true } : EdgeInput).controlPart =
        ({ sample 0b10 with rst := true, keyIn := 1 } : EdgeInput).controlPart ∧
      ({ sample 0b10 with rst := true } : EdgeInput).rst = true ∧
      accepts (.loadkey secret) keyed = true) :=
  ⟨⟨by decide, by intro i h; injection h with h; subst h; rfl⟩, ⟨by decide,
    by intro i h; cases h⟩, by decide⟩

/-- A LOADKEY that is accepted, one in RUN, and another command. -/
theorem witness_KeyWrittenOnlyByLoadkey :
    (∃ t, step (facing (sample 0b10) keyed) = .next t ∧
      (nextSample (facing (sample 0b10) keyed)).rst = false ∧
      decode (nextSample (facing (sample 0b10) keyed)) = .instr (.loadkey secret) ∧
      (facing (sample 0b10) keyed).st = .idle) ∧
    (∃ t, step (facing (sample 0b10) (running 31 1 2)) = .next t ∧
      (nextSample (facing (sample 0b10) (running 31 1 2))).rst = false ∧
      (facing (sample 0b10) (running 31 1 2)).st = .run) ∧
    (∃ t, step (facing (sample 0b00) keyed) = .next t ∧
      (nextSample (facing (sample 0b00) keyed)).rst = false ∧
      ∀ k, decode (nextSample (facing (sample 0b00) keyed)) ≠ .instr (.loadkey k)) :=
  ⟨⟨_, rfl, rfl, rfl, rfl⟩, ⟨_, rfl, rfl, rfl⟩,
    _, rfl, rfl, by intro k h; cases h⟩

theorem witness_FsmTransitions :
    (∃ t, step (facing (sample 0b00) keyed) = .next t ∧ (facing (sample 0b00) keyed).st = .idle ∧
      t.st = .run) ∧
    (∃ t, step (facing EdgeInput.idle (running 31 1 2)) = .next t ∧
      (facing EdgeInput.idle (running 31 1 2)).st = .run ∧ t.st = .idle) ∧
    (∃ t, step (facing EdgeInput.reset (running 3 1 2)) = .next t ∧
      (nextSample (facing EdgeInput.reset (running 3 1 2))).rst = true) :=
  ⟨⟨_, rfl, rfl, rfl⟩, ⟨_, rfl, rfl, rfl⟩, _, rfl, rfl⟩

/-- The five clauses, the second at its first and its last round. -/
theorem witness_RoundCounterRule :
    (∃ t, step (facing EdgeInput.reset keyed) = .next t ∧
      (nextSample (facing EdgeInput.reset keyed)).rst = true) ∧
    (∃ t, step (facing EdgeInput.idle (running 0 1 2)) = .next t ∧
      (nextSample (facing EdgeInput.idle (running 0 1 2))).rst = false ∧
      (facing EdgeInput.idle (running 0 1 2)).st = .run ∧
      (facing EdgeInput.idle (running 0 1 2)).rc ≠ 31) ∧
    (∃ t, step (facing EdgeInput.idle (running 30 1 2)) = .next t ∧
      (nextSample (facing EdgeInput.idle (running 30 1 2))).rst = false ∧
      (facing EdgeInput.idle (running 30 1 2)).st = .run ∧
      (facing EdgeInput.idle (running 30 1 2)).rc ≠ 31) ∧
    (∃ t, step (facing EdgeInput.idle (running 31 1 2)) = .next t ∧
      (nextSample (facing EdgeInput.idle (running 31 1 2))).rst = false ∧
      (facing EdgeInput.idle (running 31 1 2)).st = .run ∧
      (facing EdgeInput.idle (running 31 1 2)).rc = 31) ∧
    (∃ t, step (facing (sample 0b01) keyed) = .next t ∧
      (facing (sample 0b01) keyed).st = .idle ∧ t.st = .run) ∧
    (∃ t, step (facing (sample 0b11) keyed) = .next t ∧
      (nextSample (facing (sample 0b11) keyed)).rst = false ∧ (facing (sample 0b11) keyed).st = .idle ∧
      t.st = .idle) :=
  ⟨⟨_, rfl, rfl⟩, ⟨_, rfl, rfl, rfl, by decide⟩, ⟨_, rfl, rfl, rfl, by decide⟩,
    ⟨_, rfl, rfl, rfl, rfl⟩, ⟨_, rfl, rfl, rfl⟩,
    _, rfl, rfl, rfl, rfl⟩

theorem witness_BlockRegistersKeptWhenIdle :
    (∃ t, step (facing (sample 0b10) keyed) = .next t ∧
      (nextSample (facing (sample 0b10) keyed)).rst = false ∧ (facing (sample 0b10) keyed).st = .idle ∧
      t.st = .idle) ∧
    (∃ t, step (facing (sample 0b01) (running 31 1 2)) = .next t ∧
      (nextSample (facing (sample 0b01) (running 31 1 2))).rst = false ∧
      (facing (sample 0b01) (running 31 1 2)).st = .run) ∧
    (∃ t, step (facing (sample 0b01) keyed) = .next t ∧
      (nextSample (facing (sample 0b01) keyed)).rst = false ∧ (facing (sample 0b01) keyed).st = .idle ∧
      t.st = .run) :=
  ⟨⟨_, rfl, rfl, rfl, rfl⟩, ⟨_, rfl, rfl, rfl⟩,
    _, rfl, rfl, rfl, rfl⟩

theorem witness_ResultWrittenOnlyAtCompletion :
    (∃ t, step (facing EdgeInput.idle (running 30 1 2)) = .next t ∧
      (nextSample (facing EdgeInput.idle (running 30 1 2))).rst = false ∧
      ¬((facing EdgeInput.idle (running 30 1 2)).st = .run ∧
      (facing EdgeInput.idle (running 30 1 2)).rc = 31)) ∧
    (∃ t, step (facing EdgeInput.idle (running 31 1 2)) = .next t ∧
      (nextSample (facing EdgeInput.idle (running 31 1 2))).rst = false ∧
      (facing EdgeInput.idle (running 31 1 2)).st = .run ∧
      (facing EdgeInput.idle (running 31 1 2)).rc = 31) :=
  ⟨⟨_, rfl, rfl, by decide⟩,
    _, rfl, rfl, rfl, rfl⟩

theorem witness_DoneFlagRule :
    (∃ t, step (facing EdgeInput.reset keyed) = .next t ∧
      (nextSample (facing EdgeInput.reset keyed)).rst = true) ∧
    (∃ t, step (facing (sample 0b11) (running 31 1 2)) = .next t ∧
      (nextSample (facing (sample 0b11) (running 31 1 2))).rst = false ∧
      (facing (sample 0b11) (running 31 1 2)).st = .run ∧
      (facing (sample 0b11) (running 31 1 2)).rc = 31) ∧
    (∃ t, step (facing (sample 0b00) keyed) = .next t ∧
      (facing (sample 0b00) keyed).st = .idle ∧ t.st = .run) ∧
    (∃ t, step (facing EdgeInput.idle (running 30 1 2)) = .next t ∧
      (nextSample (facing EdgeInput.idle (running 30 1 2))).rst = false ∧
      (facing EdgeInput.idle (running 30 1 2)).st = .run ∧
      (facing EdgeInput.idle (running 30 1 2)).rc ≠ 31) ∧
    (∃ t, step (facing (sample 0b10) keyed) = .next t ∧
      (nextSample (facing (sample 0b10) keyed)).rst = false ∧ (facing (sample 0b10) keyed).st = .idle ∧
      t.st = .idle) :=
  ⟨⟨_, rfl, rfl⟩, ⟨_, rfl, rfl, rfl, rfl⟩, ⟨_, rfl, rfl, rfl⟩, ⟨_, rfl, rfl, rfl, by decide⟩,
    _, rfl, rfl, rfl, rfl⟩

theorem witness_ErrorRegisterRule :
    (∃ t, step (facing EdgeInput.idle (running 31 1 2)) = .next t ∧
      (nextSample (facing EdgeInput.idle (running 31 1 2))).rst = false ∧
      (nextSample (facing EdgeInput.idle (running 31 1 2))).cmdValid = false) ∧
    (∃ t, step (facing (sample 0b10) keyed) = .next t ∧
      (nextSample (facing (sample 0b10) keyed)).rst = false ∧
      decode (nextSample (facing (sample 0b10) keyed)) = .instr (.loadkey secret) ∧
      accepts (.loadkey secret) (facing (sample 0b10) keyed) = true) ∧
    (∃ t, step (facing (sample 0b10) (running 31 1 2)) = .next t ∧
      (nextSample (facing (sample 0b10) (running 31 1 2))).rst = false ∧
      decode (nextSample (facing (sample 0b10) (running 31 1 2))) = .instr (.loadkey secret) ∧
      accepts (.loadkey secret) (facing (sample 0b10) (running 31 1 2)) = false) :=
  ⟨⟨_, rfl, rfl, rfl⟩, ⟨_, rfl, rfl, rfl, rfl⟩,
    _, rfl, rfl, rfl, rfl⟩

theorem witness_LoadkeyTwiceIsOnce : keyed.unreset = false ∧ keyed.st = .idle := by decide

/-- The invariant with its premises met in RUN, and a step from there. -/
theorem witness_EveryStepKeepsInvariant :
    (running 31 1 2).Inv ∧ keyed.Inv ∧ ∃ t, step (running 31 1 2) = .next t :=
  ⟨⟨by decide, by decide, by decide, by decide, by decide, by decide⟩,
    ⟨by decide, by decide, by decide, by decide, by decide, by decide⟩, _, rfl⟩

theorem witness_WaitIsThirtyTwoIdleEdges :
    ((running 31 1 2).unreset = false ∧ keyed.unreset = false ∧ busy keyed = false) ∧
    (∃ t, keyed.st = .idle ∧ keyed.keyValid = true ∧
      execWith tableA (blockCommand .decrypt 7) keyed = .next t) :=
  ⟨⟨rfl, rfl, rfl⟩, _, rfl, rfl, rfl⟩

/-- V-SRC-3's lengths, a short and a long key, and lengths that pass. -/
theorem witness_HostRejectsWrongLengths :
    (List.replicate 7 (0 : Byte)).length % 8 ≠ 0 ∧ (List.replicate 15 (0 : Byte)).length % 8 ≠ 0 ∧
    (List.replicate 31 (0 : Byte)).length ≠ 32 ∧ (List.replicate 33 (0 : Byte)).length ≠ 32 ∧
    (List.replicate 8 (0 : Byte)).length % 8 = 0 ∧ ([] : List Byte).length % 8 = 0 ∧
    (List.replicate 32 (0 : Byte)).length = 32 := by decide

/-- An empty buffer and one of two chunks, with the last chunk. -/
theorem witness_HostCallTransformsEachChunk :
    ([] : List Byte).length % 8 = 0 ∧ (List.replicate 16 (0 : Byte)).length % 8 = 0 ∧
    (List.replicate 32 (0 : Byte)).length = 32 ∧ State.reset.unreset = false ∧
    State.reset.st = .idle ∧ 8 * 1 + 7 < (List.replicate 16 (0 : Byte)).length := by decide

theorem witness_HostRoundTrip :
    (List.replicate 16 (7 : Byte)).length % 8 = 0 ∧ (List.replicate 32 (0 : Byte)).length = 32 ∧
    State.reset.unreset = false ∧ State.reset.st = .idle ∧ keyed.unreset = false ∧
    keyed.st = .idle := by decide

/-- Three chunks, run in the order 2, 0, 1 on one engine after another. -/
theorem witness_ParallelHostKeepsChunkOrder :
    [2, 0, 1].Perm (List.range ([1, 2, 3] : List Block).length) ∧
    ∀ j : Nat, ((fun _ => State.reset) j).unreset = false ∧ ((fun _ => State.reset) j).st = .idle :=
  ⟨by decide, fun _ => ⟨rfl, rfl⟩⟩

theorem witness_InstancesAreIndependent :
    ([sample 0, EdgeInput.idle][1]? = some EdgeInput.idle ∧ [keyed, State.reset][1]? = some State.reset) ∧
    ([sample 0, EdgeInput.idle][2]? = none ∧ [keyed][1]? = none) := by decide

end Sys2Proof.Tests
end

section
/-!
PROOFS. The scope statements (spec/00_scope.md): the bytes of a word (R10), and the command that a step
runs (R13, spec/44_block_commands.md R136).
-/

namespace Sys2Proof.Machine

/-! ### The bytes of a word -/

/-- `be32` is the big-endian number of its bytes (R10). -/
theorem be32_toNat (b0 b1 b2 b3 : Byte) :
    (be32 b0 b1 b2 b3).toNat =
      b0.toNat * 2 ^ 24 + b1.toNat * 2 ^ 16 + b2.toNat * 2 ^ 8 + b3.toNat := by
  rw [be32_append, append_toNat, append_toNat, append_toNat]
  omega

/-- A word is the big-endian number of its own bytes (R10). -/
theorem be32_wordByte (w : Word) :
    be32 (wordByte w 0) (wordByte w 1) (wordByte w 2) (wordByte w 3) = w := by
  have hw : w.toNat < 2 ^ 32 := w.isLt
  apply BitVec.eq_of_toNat_eq
  simp only [be32_toNat, wordByte_toNat, Fin.val_zero, Fin.val_one, Fin.val_two,
    show (3 : Fin 4).val = 3 from rfl]
  omega

/-- Settles O9: the value of `be32` by its three concatenations, and the bytes of a word as the digits
of its number in base 256. -/
theorem bigEndianBytes : Obligations.BigEndianBytes :=
  ⟨fun b0 b1 b2 b3 => ⟨be32_toNat b0 b1 b2 b3, wordByte_be32 b0 b1 b2 b3⟩, be32_wordByte,
    wordByte_toNat⟩

/-! ### The command of a step -/

variable {s : State} {e : EdgeInput} {i : Instr} {nbits w : Nat}

/-- An edge with `rst = 0` runs the command its sample carries (R136). -/
theorem clockEdge_of_instr (hr : e.rst = false) (hd : decode e = .instr i) :
    clockEdge e s = exec i s := by
  simp [clockEdge, edgeBy, hr, hd]

/-- A step runs the command of the sample at the head of the ports' list (R13, R136). -/
theorem step_of_inputs_cons {rest : List EdgeInput} (hs : s.inputs = e :: rest)
    (hr : e.rst = false) (hd : decode e = .instr i) :
    step s = exec i { s with inputs := rest } := by
  have hnext : nextSample s = e := by simp [nextSample, hs]
  have hdrop : dropSample s = { s with inputs := rest } := by simp [dropSample, hs]
  rw [step_eq_clockEdge, hnext, hdrop, clockEdge_of_instr hr hd]

theorem toOption_eq_some_iff {d : Decoded} : d.toOption = some i ↔ d = .instr i := by
  cases d <;> simp [Decoded.toOption]

/-- A table word stands for no reset edge (R61; log 6). -/
theorem rst_of_tableSample (h : tableSample nbits w = some e) : e.rst = false := by
  obtain ⟨-, he⟩ := Option.ite_none_right_eq_some.1 h
  cases he
  rfl

/-- A table word that decodes stands for a sample that carries its command (log 6). -/
theorem exists_tableSample_of_decodeTableWord (h : decodeTableWord nbits w = some i) :
    ∃ e, tableSample nbits w = some e ∧ decode e = .instr i := by
  have hd : decodeWord nbits w = .instr i := toOption_eq_some_iff.1 h
  unfold decodeWord at hd
  cases ht : tableSample nbits w with
  | none => simp [ht] at hd
  | some e => exact ⟨e, rfl, by simpa [ht] using hd⟩

/-- A table word that stands for a sample puts that sample on the ports. -/
theorem withFetchWord_of_tableSample (h : tableSample nbits w = some e) :
    s.withFetchWord nbits w = presentNext e s := by
  simp [State.withFetchWord, h]

/-- The step after `withFetchWord` runs the command of the table word (log 6). -/
theorem step_withFetchWord (h : decodeTableWord nbits w = some i) :
    step (s.withFetchWord nbits w) = exec i { s with inputs := s.inputs.tail } := by
  obtain ⟨e, he, hd⟩ := exists_tableSample_of_decodeTableWord h
  rw [withFetchWord_of_tableSample he,
    step_of_inputs_cons (presentNext_inputs s e) (rst_of_tableSample he) hd]
  rfl

/-- Settles O4: a step is the edge of the next sample by definition; a sample that carries a command
makes that edge the command, and a table word puts such a sample at the head of the list. -/
theorem stepRunsTheDecodedCommand : Obligations.StepRunsTheDecodedCommand :=
  ⟨step_eq_clockEdge, fun _ _ _ _ => step_of_inputs_cons, fun _ _ _ _ => step_withFetchWord⟩

end Sys2Proof.Machine
end

section
/-!
PROOFS. The register statements (spec/10_state.md): everything an edge without reset can write, said once
as the inductive `EdgeEffect` and tied to `edgeState` and `step`; then who writes each register
(section 2), the invariant that every step keeps, and that nothing before a reset matters (R34).
-/

namespace Sys2Proof.Machine

variable {s t : State} {e : EdgeInput} {i : Instr} {S : SBoxTable}

/-! ### What an edge without reset can do -/

/-- The states after an edge with `rst = 0`, by what the edge writes: a round of a RUN edge (R134) or the
last one (R135), each with `ERR` written or kept; in IDLE at most `ERR` (R66, R162, R164), a key (R132), or
the first state of a block (R130, R131). -/
inductive EdgeEffect (S : SBoxTable) (e : EdgeInput) (s : State) : State → Prop
  /-- a RUN edge before the last -/
  | round (c : ErrCode) (hst : s.st = .run) (hrc : s.rc ≠ 31) :
    EdgeEffect S e s
      (reject c (advanceRound (blockRound S s.dir s.key s.rc (s.left, s.right)) s))
  /-- the completion edge -/
  | completion (c : ErrCode) (hst : s.st = .run) (hrc : s.rc = 31) :
    EdgeEffect S e s
      (reject c (completeBlock (blockRound S s.dir s.key s.rc (s.left, s.right)) s))
  /-- an edge in IDLE that accepts nothing, so carries no LOADKEY -/
  | errOnly (c : ErrCode) (hst : s.st = .idle) (hd : ∀ k, decode e ≠ .instr (.loadkey k)) :
    EdgeEffect S e s (reject c s)
  /-- an accepted LOADKEY -/
  | keyLoad (k : KeyBits) (hst : s.st = .idle) (hd : decode e = .instr (.loadkey k)) :
    EdgeEffect S e s (clearError (writeKey (keyFragments k) s))
  /-- an accepted ENC or DEC -/
  | blockStart (d : Direction) (b : Block) (hst : s.st = .idle) (hk : s.keyValid = true)
    (hd : decode e = .instr (blockCommand d b)) :
    EdgeEffect S e s (clearError (latchBlock d (leftHalf b) (rightHalf b) s))

/-- Keeping `ERR` is writing the code it holds. -/
theorem reject_err_self (s : State) : reject s.err s = s := rfl

/-- A RUN edge is a round or the completion, whatever code it leaves in `ERR`. -/
theorem edgeEffect_reject_runEdge (c : ErrCode) (hst : s.st = .run) :
    EdgeEffect S e s (reject c (runEdge S s)) := by
  obtain ⟨hrc, h⟩ | ⟨hrc, h⟩ := runEdge_cases S s <;> rw [h]
  · exact .completion c hst hrc
  · exact .round c hst hrc

/-- An edge that carries no command is a RUN edge or writes nothing (R66). -/
theorem edgeEffect_stateEdge (hd : ∀ k, decode e ≠ .instr (.loadkey k)) :
    EdgeEffect S e s (stateEdge S s) := by
  cases hst : s.st with
  | idle =>
    rw [stateEdge_idle hst]
    exact .errOnly s.err hst hd
  | run =>
    rw [stateEdge_run hst]
    exact edgeEffect_reject_runEdge (runEdge S s).err hst

theorem edgeEffect_commandEdge (hd : decode e = .instr i) :
    EdgeEffect S e s (commandEdge S i s) := by
  obtain ⟨hst, h⟩ | ⟨hst, hk, b, rfl, h⟩ | ⟨hst, hk, b, rfl, h⟩ | ⟨hst, -, ⟨b, hi⟩, h⟩ |
    ⟨hst, k, rfl, h⟩ | ⟨hst, rfl, h⟩ := commandEdge_cases S i s <;> rw [h]
  · exact edgeEffect_reject_runEdge _ hst
  · exact .blockStart .encrypt b hst hk hd
  · exact .blockStart .decrypt b hst hk hd
  · exact .errOnly _ hst (by obtain rfl | rfl := hi <;> simp [hd])
  · exact .keyLoad k hst hd
  · exact .errOnly _ hst (by simp [hd])

/-- Every edge with `rst = 0` has one of the effects of `EdgeEffect`. -/
theorem edgeEffect_edgeState (S : SBoxTable) (e : EdgeInput) (s : State) :
    EdgeEffect S e s (edgeState S e s) := by
  unfold edgeState
  split
  next i hd => exact edgeEffect_commandEdge hd
  next hd => exact edgeEffect_stateEdge (by simp [hd])

/-- Everything a step can do: reset, or an edge's own effect in an engine that has been reset. -/
theorem step_cases (h : step s = .next t) :
    ((nextSample s).rst = true ∧ t = resetEdge (dropSample s)) ∨
    ((nextSample s).rst = false ∧ s.unreset = false ∧
      EdgeEffect Config.sbox (nextSample s) (dropSample s) t) := by
  obtain hreset | ⟨hr, hu, rfl⟩ := clockEdge_eq_next_iff.1 h
  · exact .inl hreset
  · exact .inr ⟨hr, hu, edgeEffect_edgeState ..⟩

theorem step_of_rst_false (h : step s = .next t) (hr : (nextSample s).rst = false) :
    t = edgeState Config.sbox (nextSample s) (dropSample s) := by
  obtain ⟨hr', -⟩ | ⟨-, -, ht⟩ := clockEdge_eq_next_iff.1 h
  · simp [hr] at hr'
  · exact ht

theorem step_edgeEffect (h : step s = .next t) (hr : (nextSample s).rst = false) :
    EdgeEffect Config.sbox (nextSample s) (dropSample s) t := by
  rw [step_of_rst_false h hr]
  exact edgeEffect_edgeState ..

/-- No edge without reset writes the mark of R182. -/
theorem EdgeEffect.unreset_eq (h : EdgeEffect S e s t) : t.unreset = s.unreset := by
  cases h <;> simp

/-! ### The invariant -/

theorem inv_resetEdge (s : State) : (resetEdge s).Inv := by
  constructor <;> simp [State.reset]

theorem State.Inv.dropSample (h : s.Inv) : (dropSample s).Inv :=
  ⟨h.idleRound, h.runKey, h.runNotDone, h.noKey, h.doneResult, h.doneKey⟩

/-- The effect of an edge without reset keeps the invariant. -/
theorem EdgeEffect.inv (h : EdgeEffect S e s t) (hi : s.Inv) : t.Inv := by
  cases h with
  | round c hst _ =>
    have hk := hi.runKey hst
    have hd := hi.runNotDone hst
    constructor <;> simp [hst, hk, hd]
  | completion c hst _ =>
    have hk := hi.runKey hst
    constructor <;> simp [hk]
  | errOnly c _ _ =>
    exact ⟨hi.idleRound, hi.runKey, hi.runNotDone, hi.noKey, hi.doneResult, hi.doneKey⟩
  | keyLoad k hst _ =>
    have hrc := hi.idleRound hst
    constructor <;> simp [hst, hrc]
    exact hi.doneResult
  | blockStart d b _ hk _ => constructor <;> simp [hk]

/-- Settles O54: a reset edge gives the reset values, and every other effect of an edge keeps each
clause. -/
theorem everyStepKeepsInvariant : Obligations.EveryStepKeepsInvariant := by
  intro s t hi h
  obtain ⟨-, rfl⟩ | ⟨-, hu, he⟩ := step_cases h
  · exact ⟨inv_resetEdge _, rfl⟩
  · exact ⟨he.inv hi.dropSample, he.unreset_eq.trans hu⟩

/-! ### After a reset -/

/-- An engine that has been reset has a next state at every edge, and stays reset. -/
theorem exists_clockEdgeWith_next (S : SBoxTable) (e : EdgeInput) (hu : s.unreset = false) :
    ∃ t, clockEdgeWith S e s = .next t ∧ t.unreset = false := by
  cases hr : e.rst with
  | true => exact ⟨_, clockEdgeWith_reset hr, rfl⟩
  | false =>
    refine ⟨edgeState S e s, ?_, ?_⟩
    · rw [clockEdgeWith_no_reset hr, clocked_of_unreset_false hu]
    · rw [(edgeEffect_edgeState S e s).unreset_eq, hu]

/-- A run of an engine that has been reset ends in a next state. -/
theorem exists_runEdges_next (S : SBoxTable) (es : List EdgeInput) (hu : s.unreset = false) :
    ∃ t, runEdges S es s = .next t ∧ t.unreset = false := by
  induction es generalizing s with
  | nil => exact ⟨s, rfl, hu⟩
  | cons e es ih =>
    obtain ⟨s', hs', hu'⟩ := exists_clockEdgeWith_next S e hu
    obtain ⟨t, ht, hut⟩ := ih hu'
    exact ⟨t, by rw [runEdges, hs', andThen_next, ht], hut⟩

/-- A reset edge leaves nothing of the state but the samples that wait (R180; log 2). -/
theorem resetEdge_congr {s₁ s₂ : State} (h : s₁.inputs = s₂.inputs) :
    resetEdge s₁ = resetEdge s₂ := by
  unfold resetEdge
  rw [h]

/-- A run that begins with a reset edge goes on from the reset values. -/
theorem runOn_cons_reset (es : List EdgeInput) (s : State) (hr : e.rst = true) :
    runOn (e :: es) s = runEdges Config.sbox es (resetEdge s) := by
  rw [runOn_eq_runEdges, runEdges, clockEdgeWith_reset hr, andThen_next]

/-- Settles O7: the reset edge makes the two states one, and from there no edge is refused. -/
theorem nothingBeforeAResetMatters : Obligations.NothingBeforeAResetMatters := by
  intro e es s₁ s₂ hr hin
  simp only [runOn_cons_reset es _ hr]
  obtain ⟨t, ht, -⟩ := exists_runEdges_next Config.sbox es (s := resetEdge s₁) rfl
  exact ⟨by rw [resetEdge_congr hin], t, ht⟩

/-! ### KEY and KEY_VALID -/

/-- A LOADKEY in IDLE writes the key and sets `KEY_VALID` (R132). -/
theorem EdgeEffect.key_of_loadkey {k : KeyBits} (h : EdgeEffect S e s t) (hst : s.st = .idle)
    (hd : decode e = .instr (.loadkey k)) : t.key = keyFragments k ∧ t.keyValid = true := by
  cases h with
  | round _ hrun _ | completion _ hrun _ => simp [hst] at hrun
  | errOnly _ _ hno => exact absurd hd (hno k)
  | keyLoad k' _ hd' =>
    have hk : k = k' := by simpa [hd] using hd'
    simp [hk]
  | blockStart d _ _ _ hd' => cases d <;> simp [hd, blockCommand] at hd'

/-- Without a LOADKEY, or in RUN, the key registers are kept (R20, R21, R163). -/
theorem EdgeEffect.key_kept (h : EdgeEffect S e s t)
    (hno : (∀ k, decode e ≠ .instr (.loadkey k)) ∨ s.st = .run) :
    t.key = s.key ∧ t.keyValid = s.keyValid := by
  cases h with
  | keyLoad k hst hd => simp [hd, hst] at hno
  | round | completion | errOnly | blockStart => simp

/-- Settles O44: of the effects of an edge, only an accepted LOADKEY writes the key registers. -/
theorem keyWrittenOnlyByLoadkey : Obligations.KeyWrittenOnlyByLoadkey := by
  intro s t h hr
  have he := step_edgeEffect h hr
  refine ⟨fun k hd hst => ?_, he.key_kept⟩
  obtain ⟨hkey, hkv⟩ := he.key_of_loadkey hst hd
  exact ⟨fun j => by rw [hkey, keyFragments_get, keyFragment], hkv⟩

/-! ### ST -/

/-- From IDLE to RUN an edge has accepted a block command (R22). -/
theorem EdgeEffect.blockStart_of_st (h : EdgeEffect S e s t) (hs : s.st = .idle)
    (ht : t.st = .run) :
    ∃ d b, s.keyValid = true ∧ decode e = .instr (blockCommand d b) ∧
      t = clearError (latchBlock d (leftHalf b) (rightHalf b) s) := by
  cases h with
  | round _ hrun _ | completion _ hrun _ => simp [hs] at hrun
  | errOnly => simp [hs] at ht
  | keyLoad => simp [hs] at ht
  | blockStart d b _ hk hd => exact ⟨d, b, hk, hd, rfl⟩

/-- From RUN to IDLE an edge without reset is the completion edge (R22). -/
theorem EdgeEffect.rc_of_st_idle (h : EdgeEffect S e s t) (hs : s.st = .run) (ht : t.st = .idle) :
    s.rc = 31 := by
  cases h with
  | round => simp [hs] at ht
  | completion _ _ hrc => exact hrc
  | errOnly _ hst _ | keyLoad _ hst _ | blockStart _ _ hst _ _ => simp [hs] at hst

/-- Settles O45: a reset edge ends in IDLE; else the two transitions are the acceptance of a block command
and the completion edge. -/
theorem fsmTransitions : Obligations.FsmTransitions := by
  intro s t h
  obtain ⟨hr, rfl⟩ | ⟨hr, -, he⟩ := step_cases h
  · simp [hr, State.reset]
  · refine ⟨fun hs ht => ?_, fun hs ht => .inr (he.rc_of_st_idle hs ht), by simp [hr]⟩
    obtain ⟨d, b, hk, hd, -⟩ := he.blockStart_of_st hs ht
    refine ⟨hr, hk, b, ?_⟩
    cases d with
    | encrypt => exact .inl hd
    | decrypt => exact .inr hd

/-! ### RC, DIR, L, R, DOUT and DONE -/

/-- A RUN edge before the last writes its round, and keeps the rest but `ERR` (R134). -/
theorem EdgeEffect.round_of (h : EdgeEffect S e s t) (hst : s.st = .run) (hrc : s.rc ≠ 31) :
    ∃ c, t = reject c (advanceRound (blockRound S s.dir s.key s.rc (s.left, s.right)) s) := by
  cases h with
  | round c => exact ⟨c, rfl⟩
  | completion _ _ hrc' => exact absurd hrc' hrc
  | errOnly _ hst' _ | keyLoad _ hst' _ | blockStart _ _ hst' _ _ => simp [hst] at hst'

/-- The completion edge writes its round and the result, and keeps the rest but `ERR` (R135). -/
theorem EdgeEffect.completion_of (h : EdgeEffect S e s t) (hst : s.st = .run) (hrc : s.rc = 31) :
    ∃ c, t = reject c (completeBlock (blockRound S s.dir s.key s.rc (s.left, s.right)) s) := by
  cases h with
  | round _ _ hrc' => exact absurd hrc hrc'
  | completion c => exact ⟨c, rfl⟩
  | errOnly _ hst' _ | keyLoad _ hst' _ | blockStart _ _ hst' _ _ => simp [hst] at hst'

/-- An edge that stays in IDLE keeps every register of the block and of its result (R133). -/
theorem EdgeEffect.block_kept_of_idle (h : EdgeEffect S e s t) (hs : s.st = .idle)
    (ht : t.st = .idle) :
    t.rc = s.rc ∧ t.dir = s.dir ∧ t.left = s.left ∧ t.right = s.right ∧ t.dout = s.dout ∧
      t.done = s.done := by
  cases h with
  | round _ hst _ | completion _ hst _ => simp [hs] at hst
  | errOnly | keyLoad => simp
  | blockStart => simp at ht

/-- `RC` does not wrap before its last value. -/
theorem toNat_add_one_of_ne_last {rc : BitVec 5} (h : rc ≠ 31) :
    (rc + 1).toNat = rc.toNat + 1 := by
  bv_omega

/-- Settles O46: `RC` after each effect of an edge. -/
theorem roundCounterRule : Obligations.RoundCounterRule := by
  intro s t h
  obtain ⟨hr, rfl⟩ | ⟨hr, -, he⟩ := step_cases h
  · simp [hr, State.reset]
  refine ⟨by simp [hr], fun _ hst hrc => ?_, fun _ hst hrc => ?_, fun hs ht => ?_,
    fun _ hs ht => ?_⟩
  · obtain ⟨c, rfl⟩ := he.round_of hst hrc
    exact toNat_add_one_of_ne_last hrc
  · obtain ⟨c, rfl⟩ := he.completion_of hst hrc
    rfl
  · obtain ⟨d, b, -, -, rfl⟩ := he.blockStart_of_st hs ht
    rfl
  · obtain ⟨hrc, -⟩ := he.block_kept_of_idle hs ht
    exact hrc

/-- The direction of a block command is `cmd[0]` (R64, R130, R131). -/
theorem direction_of_decode {d : Direction} {b : Block}
    (h : decode e = .instr (blockCommand d b)) :
    d = if e.cmd.getLsbD 0 then .decrypt else .encrypt := by
  unfold decode at h
  split_ifs at h with hv h0 h1 h2
  · cases d <;> simp [blockCommand, h0] at h ⊢
  · cases d <;> simp [blockCommand, h1] at h ⊢
  · cases d <;> simp [blockCommand] at h
  · cases d <;> simp [blockCommand] at h

/-- Settles O47: the block registers after each effect of an edge. -/
theorem blockRegistersKeptWhenIdle : Obligations.BlockRegistersKeptWhenIdle := by
  intro s t h hr
  have he := step_edgeEffect h hr
  refine ⟨fun hs ht => ?_, fun hst => ?_, fun hs ht => ?_⟩
  · obtain ⟨-, hdir, hleft, hright, -⟩ := he.block_kept_of_idle hs ht
    exact ⟨hdir, hleft, hright⟩
  · by_cases hrc : s.rc = 31
    · obtain ⟨c, rfl⟩ := he.completion_of hst hrc
      rfl
    · obtain ⟨c, rfl⟩ := he.round_of hst hrc
      rfl
  · obtain ⟨d, b, -, hd, rfl⟩ := he.blockStart_of_st hs ht
    exact direction_of_decode hd

/-- Only the completion edge writes `DOUT` (R26, R143). -/
theorem EdgeEffect.dout_kept (h : EdgeEffect S e s t) (hno : ¬(s.st = .run ∧ s.rc = 31)) :
    t.dout = s.dout := by
  cases h with
  | completion _ hst hrc => exact absurd ⟨hst, hrc⟩ hno
  | round | errOnly | keyLoad | blockStart => simp

/-- Settles O48: of the effects of an edge only the completion writes `DOUT`, from the halves it writes to
`L` and `R`. -/
theorem resultWrittenOnlyAtCompletion : Obligations.ResultWrittenOnlyAtCompletion := by
  intro s t h hr
  have he := step_edgeEffect h hr
  refine ⟨he.dout_kept, fun hst hrc => ?_⟩
  obtain ⟨c, rfl⟩ := he.completion_of hst hrc
  exact ⟨rfl, rfl, rfl⟩

/-- Settles O49: `DONE` after each effect of an edge. -/
theorem doneFlagRule : Obligations.DoneFlagRule := by
  intro s t h
  obtain ⟨hr, rfl⟩ | ⟨hr, -, he⟩ := step_cases h
  · simp [hr, State.reset]
  refine ⟨by simp [hr], fun _ hst hrc => ?_, fun hs ht => ?_, fun _ hst hrc => ?_, fun _ hs ht => ?_⟩
  · obtain ⟨c, rfl⟩ := he.completion_of hst hrc
    rfl
  · obtain ⟨d, b, -, -, rfl⟩ := he.blockStart_of_st hs ht
    rfl
  · obtain ⟨c, rfl⟩ := he.round_of hst hrc
    rfl
  · obtain ⟨-, -, -, -, -, hdone⟩ := he.block_kept_of_idle hs ht
    exact hdone

/-! ### ERR -/

/-- An edge that carries no command leaves `ERR` (R66). -/
theorem stateEdge_err (S : SBoxTable) (s : State) : (stateEdge S s).err = s.err := by
  cases hst : s.st with
  | idle => rw [stateEdge_idle hst]
  | run =>
    obtain ⟨-, -, -, herr, -⟩ := runEdge_frame S s
    rw [stateEdge_run hst, herr]

/-- An accepted command writes NONE (R28). -/
theorem commandEdge_err_of_accepts (h : accepts i s = true) : (commandEdge S i s).err = .none := by
  obtain ⟨hst, -⟩ | ⟨-, -, b, -, hc⟩ | ⟨-, -, b, -, hc⟩ | ⟨-, hk, ⟨b, hi⟩, -⟩ | ⟨-, k, -, hc⟩ |
    ⟨-, rfl, -⟩ := commandEdge_cases S i s
  · cases i <;> simp [accepts, hst] at h
  · simp [hc]
  · simp [hc]
  · obtain rfl | rfl := hi <;> simp [accepts, hk] at h
  · simp [hc]
  · simp [accepts] at h

/-- A rejected command writes its code (R161 to R164). -/
theorem commandEdge_err_of_rejected (h : accepts i s = false) :
    (commandEdge S i s).err.code = if i = .illegal then 3 else if s.st = .run then 2 else 1 := by
  obtain ⟨hst, hc⟩ | ⟨hst, hk, b, rfl, -⟩ | ⟨hst, hk, b, rfl, -⟩ | ⟨hst, -, ⟨b, hi⟩, hc⟩ |
    ⟨hst, k, rfl, -⟩ | ⟨-, rfl, hc⟩ := commandEdge_cases S i s
  · cases i <;> simp [hc, hst, runCode, ErrCode.code]
  · simp [accepts, hst, hk] at h
  · simp [accepts, hst, hk] at h
  · obtain rfl | rfl := hi <;> simp [hc, hst, ErrCode.code]
  · simp [accepts, hst] at h
  · simp [hc, ErrCode.code]

/-- Settles O50: an edge without a command does not write `ERR`, and a command writes it by whether it is
accepted. -/
theorem errorRegisterRule : Obligations.ErrorRegisterRule := by
  intro s t h hr
  rw [step_of_rst_false h hr]
  refine ⟨fun hv => ?_, fun i hd ha => ?_, fun i hd ha => ?_⟩
  · rw [edgeState_noCommand hv, stateEdge_err, dropSample_err]
  · rw [edgeState_command hd, commandEdge_err_of_accepts (s := dropSample s) ha]
    rfl
  · rw [edgeState_command hd]
    exact commandEdge_err_of_rejected ha

/-! ### The status port -/

/-- The bits of the port: BUSY, `DONE`, `KEY_VALID`, and `ERR` from bit 3 up (R29). -/
theorem status_getLsbD (s : State) (j : Nat) :
    (status s).getLsbD j =
      if j = 0 then busy s else if j = 1 then s.done else if j = 2 then s.keyValid
      else s.err.code.getLsbD (j - 3) := by
  show BitVec.getLsbD (s.err.code ++ BitVec.ofBool s.keyValid ++ BitVec.ofBool s.done ++
    BitVec.ofBool (busy s)) j = _
  simp only [BitVec.getLsbD_append]
  match j with
  | 0 => simp
  | 1 => simp
  | 2 => simp
  | j + 3 => simp

theorem busy_iff (s : State) : busy s = true ↔ s.st = .run := beq_iff_eq

/-- Settles O51: the fields are the bits of the port; the reset value is computed. -/
theorem statusFields : Obligations.StatusFields := by
  refine ⟨fun s => ⟨?_, status_getLsbD s 1, status_getLsbD s 2, ?_⟩, rfl⟩
  · rw [status_getLsbD, if_pos rfl, busy_iff]
  · apply BitVec.eq_of_getLsbD_eq
    intro j hj
    have h1 : 3 + j ≠ 1 := by omega
    have h2 : 3 + j ≠ 2 := by omega
    simp [status_getLsbD, hj, h1, h2]

end Sys2Proof.Machine
end

section
/-!
PROOFS. The memory statements (spec/20_memory.md): the bytes of a latched block (R44, R45), the key written
twice (R49), and engines side by side (R54).
-/

namespace Sys2Proof.Machine

variable {s : State}

/-! ### The bytes of a block -/

/-- Byte `i` of a word that is 32 bits of a longer value is 8 bits of that value (R44). -/
theorem wordByte_extractLsb' {n : Nat} (x : BitVec n) (p : Nat) (i : Fin 4) :
    wordByte (x.extractLsb' p 32) i = x.extractLsb' (p + (24 - 8 * i.val)) 8 := by
  apply BitVec.eq_of_getLsbD_eq
  intro j hj
  have hlt : 24 - 8 * i.val + j < 32 := by omega
  simp [wordByte, hj, hlt, Nat.add_assoc]

/-- 32 bits of a value are the big-endian word of their four bytes (R10, R44). -/
theorem extractLsb'_eq_be32 {n : Nat} (x : BitVec n) (p : Nat) :
    x.extractLsb' p 32 = be32 (x.extractLsb' (p + 24) 8) (x.extractLsb' (p + 16) 8)
      (x.extractLsb' (p + 8) 8) (x.extractLsb' p 8) := by
  have h := be32_wordByte (x.extractLsb' p 32)
  simp only [wordByte_extractLsb'] at h
  exact h.symm

/-- Left is the big-endian word of block bytes 0 to 3 (R45, R62). -/
theorem leftHalf_eq_be32 (b : Block) :
    leftHalf b = be32 (b.extractLsb' 56 8) (b.extractLsb' 48 8) (b.extractLsb' 40 8)
      (b.extractLsb' 32 8) := extractLsb'_eq_be32 b 32

/-- Right is the big-endian word of block bytes 4 to 7 (R45, R62). -/
theorem rightHalf_eq_be32 (b : Block) :
    rightHalf b = be32 (b.extractLsb' 24 8) (b.extractLsb' 16 8) (b.extractLsb' 8 8)
      (b.extractLsb' 0 8) := extractLsb'_eq_be32 b 0

/-- A block command in IDLE with a key latches the block, in either direction (R130, R131). -/
theorem commandEdge_blockCommand_accepted (S : SBoxTable) (d : Direction) (b : Block)
    (h : s.st = .idle) (hk : s.keyValid = true) :
    commandEdge S (blockCommand d b) s =
      clearError (latchBlock d (leftHalf b) (rightHalf b) s) := by
  cases d with
  | encrypt => exact commandEdge_enc_accepted b h hk
  | decrypt => exact commandEdge_dec_accepted b h hk

/-- Settles O26: an accepted block command latches the halves of its block, and each half is the
big-endian word of its bytes. -/
theorem latchedHalvesAreBigEndian : Obligations.LatchedHalvesAreBigEndian := by
  intro s b d hu hst hk
  refine ⟨_, exec_of_unreset_false hu, ?_⟩
  rw [commandEdge_blockCommand_accepted _ d b hst hk]
  exact ⟨rfl, leftHalf_eq_be32 b, rightHalf_eq_be32 b⟩

/-! ### The key register file -/

/-- What a LOADKEY leaves, a second write of its key leaves as it is (R49, R132). -/
theorem clearError_writeKey_idem (key : Vector Word 8) (s : State) :
    clearError (writeKey key (clearError (writeKey key s))) = clearError (writeKey key s) := rfl

/-- Settles O52: the first LOADKEY leaves IDLE, so the second one is accepted too and writes what is
there. -/
theorem loadkeyTwiceIsOnce : Obligations.LoadkeyTwiceIsOnce := by
  intro s k hu hst
  have hedge := commandEdge_loadkey_idle (S := Config.sbox) k hst
  refine ⟨_, exec_of_unreset_false hu, ?_⟩
  rw [hedge, exec_of_unreset_false (by simpa using hu),
    commandEdge_loadkey_idle k (by simpa using hst), clearError_writeKey_idem]

/-! ### Engines side by side -/

/-- A position of the fleet has an outcome exactly when it has a sample and an engine, and the outcome is
that engine's own edge (R54). -/
theorem getElem?_fleetEdge_eq_some_iff {S : SBoxTable} {samples : List EdgeInput}
    {engines : List State} {j : Nat} {o : Host.Outcome State Fault Refusal} :
    (fleetEdge S samples engines)[j]? = some o ↔
      ∃ e s, samples[j]? = some e ∧ engines[j]? = some s ∧ clockEdgeWith S e s = o :=
  List.getElem?_zipWith_eq_some

/-- Settles O60: the outcome at a position is read off the sample and the engine there, and without one of
them there is none. -/
theorem instancesAreIndependent : Obligations.InstancesAreIndependent := by
  intro S samples engines j
  refine ⟨fun e s he hs => getElem?_fleetEdge_eq_some_iff.2 ⟨e, s, he, hs, rfl⟩, fun hnone => ?_⟩
  rw [Option.eq_none_iff_forall_ne_some]
  intro o ho
  obtain ⟨e, s, he, hs, -⟩ := getElem?_fleetEdge_eq_some_iff.1 ho
  obtain h | h := hnone
  · simp [he] at h
  · simp [hs] at h

end Sys2Proof.Machine
end

section
/-!
PROOFS. The encoding statements (spec/30_encoding.md): the rows of the command map (R64), the decoder as the
inverse of the encoder (R61 to R63), the words of the opcode table, and `WAIT` (R70).
-/

namespace Sys2Proof.Machine

variable {s : State} {e : EdgeInput} {i : Instr} {S : SBoxTable} {n : Nat}

/-! ### The decoder -/

/-- Settles O2: with its `cmd_valid` and `cmd` given, the decoder's tests are decided. -/
theorem commandMapRows : Obligations.CommandMapRows :=
  fun _ _ _ => ⟨rfl, rfl, rfl, rfl, fun _ => rfl⟩

/-- Settles O3: `decodeTableWord` evaluated on each of the six words. -/
theorem tableWordsDecode : Obligations.TableWordsDecode :=
  ⟨rfl, rfl, rfl, rfl, rfl, rfl⟩

/-- The sample carries the command's operand on the port that command reads (R62, R63). -/
def carriesOperand (e : EdgeInput) : Instr → Prop
  | .enc b => e.blockIn = b
  | .dec b => e.blockIn = b
  | .loadkey k => e.keyIn = k
  | .illegal => True

/-- Bit 2 of a sample's word is `cmd_valid` (R61). -/
theorem cmd3_getLsbD_two (e : EdgeInput) : (cmd3 e).getLsbD 2 = e.cmdValid := by
  rw [cmd3, BitVec.getLsbD_append]
  simp

/-- Without `cmd_valid` a sample is rejected (R66). -/
theorem decode_of_cmdValid_false (h : e.cmdValid = false) : decode e = .reject .noCommand := by
  simp [decode, h]

theorem cmd_cases (c : BitVec 2) : c = 0b00 ∨ c = 0b01 ∨ c = 0b10 ∨ c = 0b11 := by
  revert c
  decide

/-- With `cmd_valid` a sample decodes to the command whose word and operand it carries (R61 to R64). -/
theorem exists_decode_of_cmdValid (h : e.cmdValid = true) :
    ∃ i, decode e = .instr i ∧ cmd3 e = encodeCmd3 i ∧ carriesOperand e i := by
  obtain ⟨rst, valid, cmd, b, k⟩ := e
  obtain rfl : valid = true := h
  obtain rfl | rfl | rfl | rfl := cmd_cases cmd
  · exact ⟨.enc b, rfl, by simp [cmd3, encodeCmd3], rfl⟩
  · exact ⟨.dec b, rfl, by simp [cmd3, encodeCmd3], rfl⟩
  · exact ⟨.loadkey k, rfl, by simp [cmd3, encodeCmd3], rfl⟩
  · exact ⟨.illegal, rfl, by simp [cmd3, encodeCmd3], trivial⟩

/-- A decoded sample carries its command's word and operand (R61 to R64). -/
theorem cmd3_and_operand_of_decode (h : decode e = .instr i) :
    cmd3 e = encodeCmd3 i ∧ carriesOperand e i := by
  cases hv : e.cmdValid with
  | false => simp [decode_of_cmdValid_false hv] at h
  | true =>
    obtain ⟨j, hd, hj⟩ := exists_decode_of_cmdValid hv
    obtain rfl : j = i := by simpa [hd] using h
    exact hj

/-- The decoder gives back an encoded command: the encoder writes the row of the command map that the
decoder reads (R64). -/
theorem decode_encode (i : Instr) : decode (encode i) = .instr i := by
  cases i <;>
    simp [encode, sampleOfCmd3, encodeCmd3, decode, Instr.blockOperand, Instr.keyOperand]

/-- A sample is rejected exactly when `cmd_valid` is 0 (R66). -/
theorem exists_decode_eq_reject_iff : (∃ why, decode e = .reject why) ↔ e.cmdValid = false := by
  constructor
  · rintro ⟨why, h⟩
    by_contra hv
    obtain ⟨i, hd, -⟩ := exists_decode_of_cmdValid (by simpa using hv)
    simp [hd] at h
  · exact fun h => ⟨_, decode_of_cmdValid_false h⟩

/-- Settles O1: encoding and decoding agree row by row of the command map, and `cmd_valid`, bit 2 of the
word, decides whether there is a row. -/
theorem decoderAndEncoderAgree : Obligations.DecoderAndEncoderAgree := by
  refine ⟨fun i _ => ⟨decode_encode i, rfl⟩, fun e i h => ?_, fun e => ?_⟩
  · obtain ⟨hword, hop⟩ := cmd3_and_operand_of_decode h
    refine ⟨hword, ?_, ?_⟩
    · rintro b (rfl | rfl) <;> exact hop
    · rintro k rfl
      exact hop
  · rw [cmd3_getLsbD_two, exists_decode_eq_reject_iff]

/-! ### WAIT -/

/-- An edge with nothing presented does what the state requires (R66). -/
theorem clockEdgeWith_idle (S : SBoxTable) (hu : s.unreset = false) :
    clockEdgeWith S EdgeInput.idle s = .next (stateEdge S s) := by
  rw [clockEdgeWith_no_reset rfl, clocked_of_unreset_false hu, edgeState_noCommand rfl]

theorem stateEdge_unreset (S : SBoxTable) (s : State) :
    (stateEdge S s).unreset = s.unreset :=
  (edgeEffect_stateEdge (e := EdgeInput.idle) (by simp [decode, EdgeInput.idle])).unreset_eq

theorem busy_eq_false_iff : busy s = false ↔ s.st = .idle := by
  cases h : s.st <;> simp [busy, h]

/-- `WAIT` takes no edge where BUSY is 0 (R70). -/
theorem waitAtMost_of_not_busy (hb : busy s = false) : waitAtMost S n s = .next s := by
  cases n <;> simp [waitAtMost, hb]

/-- Where BUSY is 1, `WAIT` takes an edge and goes on (R70). -/
theorem waitAtMost_succ_of_busy (hu : s.unreset = false) (hb : busy s = true) :
    waitAtMost S (n + 1) s = waitAtMost S n (stateEdge S s) := by
  simp [waitAtMost, hb, clockEdgeWith_idle S hu]

/-- `IDLE (n + 1)` takes an edge and goes on (R70). -/
theorem runEdges_idle_succ (hu : s.unreset = false) :
    runEdges S (List.replicate (n + 1) EdgeInput.idle) s =
      runEdges S (List.replicate n EdgeInput.idle) (stateEdge S s) := by
  rw [List.replicate_succ, runEdges, clockEdgeWith_idle S hu, andThen_next]

/-- `WAIT` of at most `n` edges is `IDLE n`: the edges it leaves out would be in IDLE, where they change
nothing (R133). -/
theorem waitAtMost_eq_runEdges_idle (hu : s.unreset = false) :
    waitAtMost S n s = runEdges S (List.replicate n EdgeInput.idle) s := by
  induction n generalizing s with
  | zero => rfl
  | succ n ih =>
    rw [runEdges_idle_succ hu, ← ih (by rw [stateEdge_unreset, hu])]
    cases hb : busy s with
    | false =>
      rw [stateEdge_idle (busy_eq_false_iff.1 hb), waitAtMost_of_not_busy hb,
        waitAtMost_of_not_busy hb]
    | true => exact waitAtMost_succ_of_busy hu hb

/-- After a RUN edge the engine is done or has counted the round (R134, R135). -/
theorem rc_of_stateEdge_busy (hs : busy s = true) (hb : busy (stateEdge S s) = true) :
    (stateEdge S s).rc.toNat = s.rc.toNat + 1 := by
  have hst := (busy_iff s).1 hs
  rw [busy_iff] at hb
  rw [stateEdge_run hst] at hb ⊢
  obtain ⟨-, h⟩ | ⟨hrc, h⟩ := runEdge_cases S s
  · simp [h] at hb
  · simpa [h] using toNat_add_one_of_ne_last hrc

/-- `WAIT` ends with BUSY = 0 if it may take as many edges as there are rounds left (R70, R141; log 10). -/
theorem exists_waitAtMost_next (hu : s.unreset = false)
    (hn : busy s = true → 32 ≤ s.rc.toNat + n) :
    ∃ t, waitAtMost S n s = .next t ∧ busy t = false := by
  induction n generalizing s with
  | zero =>
    refine ⟨s, rfl, ?_⟩
    by_contra hb
    have := hn (by simpa using hb)
    omega
  | succ n ih =>
    cases hb : busy s with
    | false => exact ⟨s, waitAtMost_of_not_busy hb, hb⟩
    | true =>
      rw [waitAtMost_succ_of_busy hu hb]
      refine ih (by rw [stateEdge_unreset, hu]) fun hb' => ?_
      have hrc := rc_of_stateEdge_busy hb hb'
      have hle := hn hb
      omega

/-- A command leaves an engine that has been reset as one (R182). -/
theorem unreset_of_execWith {t : State} (h : execWith S i s = .next t) : t.unreset = false := by
  rw [execWith_eq_clocked, clocked_eq_next_iff] at h
  obtain ⟨hu, rfl⟩ := h
  rw [(edgeEffect_commandEdge (decode_encode i)).unreset_eq, hu]

/-- Settles O55: 32 edges are as many as there are rounds, and a `WAIT` of at most 32 edges is `IDLE 32`
from every state after a reset, so from the one after an accepted block command. -/
theorem waitIsThirtyTwoIdleEdges : Obligations.WaitIsThirtyTwoIdleEdges := by
  intro S s hu
  refine ⟨exists_waitAtMost_next hu fun _ => Nat.le_add_left .., waitAtMost_of_not_busy, ?_⟩
  intro d b t _ _ h
  exact waitAtMost_eq_runEdges_idle (unreset_of_execWith h)

end Sys2Proof.Machine
end

section
/-!
PROOFS. The round-mixing statements (spec/41_round_mix.md): the modular addition (R91), the rotation of a byte
(R94), the bit-level form (R100) and corner cases (R97) of MIX, and what MIX, and the engine through it, reads
of the substitution table (R98).
-/

namespace Sys2Proof.Machine

variable {S S' : SBoxTable}

/-! ### The addition and the rotation -/

/-- Settles O8: `add32` is the addition of 32-bit words, whose number is the sum modulo 2^32. -/
theorem additionWraps : Obligations.AdditionWraps := by
  intro h k
  rw [add32_eq_add, BitVec.toNat_add]

/-- A rotation by a multiple of 8 is the identity on a byte (R97 f). -/
theorem rotl8_of_mod_eq_zero {n : Nat} (hn : n % 8 = 0) (x : Byte) : rotl8 x n = x := by
  simp [rotl8, hn]

/-- A rotation of a byte depends on its count modulo 8 only (R94). -/
theorem rotl8_congr {m n : Nat} (hmn : m % 8 = n % 8) (x : Byte) : rotl8 x m = rotl8 x n := by
  simp [rotl8, hmn]

/-- A rotation by 3 puts the low five bits above the high three (R94). -/
theorem rotl8_three (x : Byte) :
    rotl8 x 3 = (x.extractLsb' 0 5 ++ x.extractLsb' 5 3 : BitVec (5 + 3)) := by
  apply BitVec.eq_of_getLsbD_eq
  intro j hj
  show BitVec.getLsbD ((x <<< 3) ||| (x >>> 5)) j = _
  rw [BitVec.getLsbD_append, BitVec.getLsbD_or, BitVec.getLsbD_shiftLeft,
    BitVec.getLsbD_ushiftRight, BitVec.getLsbD_extractLsb', BitVec.getLsbD_extractLsb']
  by_cases hlow : j < 3
  · simp [hlow]
  · have hhigh : x.getLsbD (5 + j) = false := BitVec.getLsbD_of_ge _ _ (by omega)
    have hsub : j - 3 < 5 := by omega
    simp [hlow, hj, hhigh, hsub]

/-- Settles O10: 11 and 3 are equal modulo 8, and a rotation by 3 splits the byte at bit 5. -/
theorem rotationByElevenIsByThree : Obligations.RotationByElevenIsByThree := by
  intro t
  have h : rotl8 t 11 = rotl8 t 3 := rotl8_congr rfl t
  exact ⟨h, h.trans (rotl8_three t)⟩

/-! ### The bits of MIX -/

/-- Bits of byte `i` of a word are bits of the word (R10). -/
theorem extractLsb'_wordByte (w : Word) (i : Fin 4) {p n : Nat} (hp : p + n ≤ 8) :
    (wordByte w i).extractLsb' p n = w.extractLsb' (24 - 8 * i.val + p) n := by
  apply BitVec.eq_of_getLsbD_eq
  intro j hj
  have hlt : p + j < 8 := by omega
  simp [wordByte, hj, hlt, Nat.add_assoc]

/-- The high nibble of byte `i` of a word, by its bits (R92). -/
theorem highNibble_wordByte (w : Word) (i : Fin 4) :
    highNibble (wordByte w i) = w.extractLsb' (28 - 8 * i.val) 4 := by
  have hi : 24 - 8 * i.val + 4 = 28 - 8 * i.val := by omega
  rw [highNibble, extractLsb'_wordByte w i (by decide), hi]

/-- The low nibble of byte `i` of a word, by its bits (R92). -/
theorem lowNibble_wordByte (w : Word) (i : Fin 4) :
    lowNibble (wordByte w i) = w.extractLsb' (24 - 8 * i.val) 4 :=
  extractLsb'_wordByte w i (by decide)

/-- The rotation of MIX is by 3 (R94). -/
theorem mixByte_eq_rotl8_three (S : SBoxTable) (s : Word) (i : Fin 4) :
    mixByte S s i = rotl8 (substituteByte S i (wordByte s i)) 3 := rotl8_congr rfl _

/-- Settles O11: byte `i` of MIX is the mixed byte `i` of the sum, and the nibbles of that byte are bits of
the sum. -/
theorem mixBitLevelForm : Obligations.MixBitLevelForm := by
  intro S h k i
  calc wordByte (mix S h k) i
      = rotl8 (substituteByte S i (wordByte (h + k) i)) 3 := by
        rw [wordByte_mix, mixByte_eq_rotl8_three, add32_eq_add]
    _ = _ := by
        rw [substituteByte, highNibble_wordByte, lowNibble_wordByte]
        rfl

/-- MIX depends on its operands through their sum only (R97 d). -/
theorem mix_eq_of_add32_eq {h k h' k' : Word} (hsum : add32 h k = add32 h' k') :
    mix S h k = mix S h' k' := by
  simp only [mix, hsum]

/-- The substitution of a zero byte reads column 0 of two adjacent rows (R97 e). -/
theorem substituteByte_wordByte_zero (S : SBoxTable) (i : Fin 4) :
    substituteByte S i (wordByte 0 i) =
      sboxLookup S (highRow i) 0 ++ sboxLookup S (lowRow i) 0 := by
  simp [substituteByte, highNibble_wordByte, lowNibble_wordByte]

/-- Settles O12: (a) and (d) are about equal sums, (c) and (e) about the bytes of the sum, (f) about
counts modulo 8; (b), and the byte that a rotation by 11 moves, are computed. -/
theorem mixCornerCases : Obligations.MixCornerCases := by
  intro S
  refine ⟨⟨mix_eq_of_add32_eq rfl, mix_eq_of_add32_eq rfl⟩, by decide, ?_, ?_, ?_,
    fun x => ⟨rotl8_of_mod_eq_zero rfl x, rotl8_of_mod_eq_zero rfl x, rotl8_congr rfl x⟩,
    1, by decide⟩
  · intro h i
    rw [wordByte_mix, add32_eq_add, add_zero, mixByte, Config.rotAmount]
  · intro h k c
    apply mix_eq_of_add32_eq
    rw [add32_eq_add, add32_eq_add, add_add_sub_cancel]
  · intro h k i hsum
    rw [wordByte_mix, hsum, mixByte_eq_rotl8_three, substituteByte_wordByte_zero]
    rfl

/-! ### The rows that MIX reads -/

/-- Two tables with the same rows 0 to 4 (R98). -/
def agreeOnMixRows (S S' : SBoxTable) : Prop :=
  ∀ (r : Fin 8) (n : Fin 16), r.val ≤ 4 → S r n = S' r n

/-- The rows of a byte are among the rows 0 to 4, so no other row reaches the output of MIX (R98). -/
theorem mix_eq_of_agreeOnMixRows (hS : agreeOnMixRows S S') : mix S = mix S' := by
  have hbyte : ∀ (s : Word) (i : Fin 4), mixByte S s i = mixByte S' s i := by
    intro s i
    refine mixByte_congr s i (fun n => hS (highRow i) n ?_) (fun n => hS (lowRow i) n ?_)
    · show i.val ≤ 4
      omega
    · show i.val + 1 ≤ 4
      omega
  funext h k
  simp only [mix, hbyte]

/-- The table with 1 everywhere in row `r` and 0 in every other row. -/
def markRow (r : Fin 8) : SBoxTable := fun q _ => if q = r then 1 else 0

theorem markRow_of_ne {q r : Fin 8} (h : q ≠ r) (n : Fin 16) : markRow r q n = 0 := if_neg h

/-- A mark in any of the rows 0 to 4 shows in `F(0, 0)` (R98). -/
theorem mix_markRow_ne (r : Fin 8) (hr : r.val ≤ 4) :
    mix (markRow r) 0 0 ≠ mix (fun _ _ => 0) 0 0 := by
  revert r
  decide

/-- Settles O13: MIX reads no row above 4; each row up to 4 is told from a row of zeros by a mark. -/
theorem mixReadsRowsZeroToFour : Obligations.MixReadsRowsZeroToFour := by
  refine ⟨fun S S' hS h k => ?_, fun r hr => ?_⟩
  · rw [mix_eq_of_agreeOnMixRows hS]
  · exact ⟨markRow r, fun _ _ => 0, 0, 0, fun _ n hq => markRow_of_ne hq n, mix_markRow_ne r hr⟩

/-! ### What the engine reads of the table

Every edge reads the table through MIX only (R83): two tables with one MIX are one engine. -/

section SameMix

variable (hm : mix S = mix S')
include hm

theorem blockRound_congr_mix : blockRound S = blockRound S' := by
  funext d key rc p
  simp only [blockRound, feistelRound, hm]

theorem stateEdge_congr_mix : stateEdge S = stateEdge S' := by
  funext s
  unfold stateEdge runEdge
  rw [blockRound_congr_mix hm]

theorem commandEdge_congr_mix (i : Instr) : commandEdge S i = commandEdge S' i := by
  funext s
  cases i <;>
    simp only [commandEdge, blockCommandEdge, loadkeyEdge, rejectedEdge, stateEdge_congr_mix hm]

theorem edgeState_congr_mix (e : EdgeInput) : edgeState S e = edgeState S' e := by
  funext s
  unfold edgeState
  cases decode e with
  | instr i => exact congrFun (commandEdge_congr_mix hm i) s
  | reject _ => exact congrFun (stateEdge_congr_mix hm) s

theorem clockEdgeWith_congr_mix (e : EdgeInput) (s : State) :
    clockEdgeWith S e s = clockEdgeWith S' e s := by
  cases hr : e.rst with
  | true => rw [clockEdgeWith_reset hr, clockEdgeWith_reset hr]
  | false => rw [clockEdgeWith_no_reset hr, clockEdgeWith_no_reset hr, edgeState_congr_mix hm]

theorem runEdges_congr_mix (es : List EdgeInput) : runEdges S es = runEdges S' es := by
  induction es with
  | nil => rfl
  | cons e es ih =>
    funext s
    rw [runEdges, runEdges, clockEdgeWith_congr_mix hm, ih]

end SameMix

/-- Settles O14: tables that agree on rows 0 to 4 have one MIX, the only reader of the table in a run. -/
theorem engineIgnoresRowsFiveToSeven : Obligations.EngineIgnoresRowsFiveToSeven := by
  intro S S' hS es s
  rw [runEdges_congr_mix (mix_eq_of_agreeOnMixRows hS)]

end Sys2Proof.Machine
end

section
/-!
PROOFS. The statements of the Feistel round (spec/42_feistel_round.md): its corner cases (R113), and the round
as a composition of two involutions (R114).
-/

namespace Sys2Proof.Machine

/-! ### The corner cases -/

/-- The XOR of words is the XOR of their bytes (R113 b). -/
theorem wordByte_xor (a b : Word) (i : Fin 4) :
    wordByte (a ^^^ b) i = wordByte a i ^^^ wordByte b i :=
  BitVec.extractLsb'_xor

/-- Settles O15: in both forms of the round the new half is `l ^^^ mix S r k` and the other half is `r`. -/
theorem roundCornerCases : Obligations.RoundCornerCases := by
  intro S l r k
  refine ⟨⟨rfl, rfl⟩, ⟨rfl, wordByte_xor l (mix S r k)⟩, fun hl => ?_, fun hm => ?_⟩
  · have hnew : l ^^^ mix S r k = 0 := hl ▸ BitVec.xor_self
    rw [feistelRound_terminal, feistelRound_swap, hnew]
    exact ⟨rfl, rfl⟩
  · have hnew : l ^^^ mix S r k = l := hm ▸ BitVec.xor_zero
    rw [feistelRound_terminal, feistelRound_swap, hnew]
    exact ⟨rfl, rfl⟩

/-! ### The two involutions -/

/-- The terminal round undoes itself: it keeps the Right half, so the second round adds the same word that the
first one added (R114). No property of MIX is used. -/
theorem terminalRound_involutive (S : SBoxTable) (k : Word) :
    Function.Involutive fun p : Word × Word => feistelRound S p.1 p.2 k true := by
  intro p
  simp only [feistelRound_terminal]
  rw [BitVec.xor_assoc, BitVec.xor_self, BitVec.xor_zero]

/-- Settles O16: `tau` is the terminal round, and `sigma` is the swap of a pair. -/
theorem roundIsTwoInvolutions : Obligations.RoundIsTwoInvolutions := by
  intro S k tau sigma p
  exact ⟨feistelRound_terminal S p.1 p.2 k, feistelRound_swap S p.1 p.2 k,
    terminalRound_involutive S k p, Prod.swap_swap p⟩

end Sys2Proof.Machine
end

section
/-!
PROOFS. The key-schedule statements (spec/43_key_schedule.md): the loaded fragments by their bytes (R120), the
ROM from its closed forms (R121 to R126), and the encryption order applied twice (R128).
-/

namespace Sys2Proof.Machine

variable {s t : State} {rc : BitVec 5}

/-! ### The loaded fragments -/

/-- Fragment `i` is the big-endian word of key bytes `4i` to `4i + 3` (R46, R120). -/
theorem keyFragment_eq_be32 (k : KeyBits) (i : Fin 8) :
    keyFragment k i = be32 (k.extractLsb' (248 - 8 * (4 * i.val)) 8)
      (k.extractLsb' (248 - 8 * (4 * i.val + 1)) 8) (k.extractLsb' (248 - 8 * (4 * i.val + 2)) 8)
      (k.extractLsb' (248 - 8 * (4 * i.val + 3)) 8) := by
  have h0 : 248 - 8 * (4 * i.val) = 224 - 32 * i.val + 24 := by omega
  have h1 : 248 - 8 * (4 * i.val + 1) = 224 - 32 * i.val + 16 := by omega
  have h2 : 248 - 8 * (4 * i.val + 2) = 224 - 32 * i.val + 8 := by omega
  have h3 : 248 - 8 * (4 * i.val + 3) = 224 - 32 * i.val := by omega
  rw [h0, h1, h2, h3]
  exact extractLsb'_eq_be32 k (224 - 32 * i.val)

/-- A LOADKEY in IDLE writes the fragments of its operand (R132). -/
theorem key_of_exec_loadkey {k : KeyBits} (hst : s.st = .idle)
    (h : exec (.loadkey k) s = .next t) : t.key = keyFragments k := by
  obtain ⟨-, rfl⟩ := exec_eq_next_iff.1 h
  rw [commandEdge_loadkey_idle k hst, clearError_key, writeKey_key]

/-- Settles O25: an accepted LOADKEY writes the fragments of its operand, and each fragment is a slice of
the port, so the big-endian word of its bytes. -/
theorem loadedFragmentsAreBigEndian : Obligations.LoadedFragmentsAreBigEndian := by
  intro s t k hst h i
  rw [key_of_exec_loadkey hst h, keyFragments_get]
  exact ⟨keyFragment_eq_be32 k i, rfl⟩

/-! ### The ROM

The two closed forms are read off the 64 entries; what relates entries to one another is arithmetic on
them. -/

/-- The closed form of the encryption order (R121). -/
theorem ks_encrypt_val (rc : BitVec 5) :
    (ks .encrypt rc).val = if rc.toNat ≤ 23 then rc.toNat % 8 else 31 - rc.toNat := by
  revert rc
  decide

/-- The closed form of the decryption order (R122). -/
theorem ks_decrypt_val (rc : BitVec 5) :
    (ks .decrypt rc).val = if rc.toNat ≤ 7 then rc.toNat else (31 - rc.toNat) % 8 := by
  revert rc
  decide

/-- The decryption order is the encryption order reversed (R123). -/
theorem ks_decrypt_eq_ks_encrypt_sub (rc : BitVec 5) :
    ks .decrypt rc = ks .encrypt (31 - rc) := by
  have hsub : (31 - rc).toNat = 31 - rc.toNat := by bv_omega
  apply Fin.ext
  rw [ks_decrypt_val, ks_encrypt_val, hsub]
  split_ifs <;> omega

/-- In encryption only rounds 23 and 24 are adjacent with one fragment (R125). -/
theorem ks_encrypt_eq_ks_encrypt_add_one_iff (h : rc ≠ 31) :
    ks .encrypt rc = ks .encrypt (rc + 1) ↔ rc = 23 := by
  have h31 : rc.toNat < 31 := by bv_omega
  have h23 : rc = 23 ↔ rc.toNat = 23 := by bv_omega
  rw [Fin.ext_iff, ks_encrypt_val, ks_encrypt_val, toNat_add_one_of_ne_last h, h23]
  split_ifs <;> omega

/-- In decryption only rounds 7 and 8 are adjacent with one fragment: they are rounds 24 and 23 of
encryption (R123, R125). -/
theorem ks_decrypt_eq_ks_decrypt_add_one_iff (h : rc ≠ 31) :
    ks .decrypt rc = ks .decrypt (rc + 1) ↔ rc = 7 := by
  have hnext : 31 - rc = 31 - (rc + 1) + 1 := by bv_omega
  have hne : 31 - (rc + 1) ≠ 31 := by bv_omega
  have h7 : 31 - (rc + 1) = 23 ↔ rc = 7 := by bv_omega
  rw [ks_decrypt_eq_ks_encrypt_sub, ks_decrypt_eq_ks_encrypt_sub, hnext, eq_comm,
    ks_encrypt_eq_ks_encrypt_add_one_iff hne, h7]

/-- Settles O17: the tables and the number of uses of each fragment are computed from the ROM; the rest is
the closed forms and what follows from them. -/
theorem keyScheduleRom : Obligations.KeyScheduleRom := by
  refine ⟨⟨rfl, rfl⟩, fun rc => ?_, fun rc hlt => ?_, ⟨rfl, rfl⟩, by decide⟩
  · exact ⟨ks_encrypt_val rc, ks_decrypt_val rc, ks_decrypt_eq_ks_encrypt_sub rc⟩
  · have hne : rc ≠ 31 := by bv_omega
    exact ⟨ks_encrypt_eq_ks_encrypt_add_one_iff hne, ks_decrypt_eq_ks_decrypt_add_one_iff hne⟩

/-! ### The encryption order applied twice

The case V-BLK-5.4 of spec/95_test_vectors.md: the table TS_ID, the key K2 and the block of zeros. -/

/-- TS_ID: every row of the table is the identity (spec/95_test_vectors.md section 0). -/
def identityTable : SBoxTable := fun _ n => n

/-- The fragments of K2, the key of the bytes 0 to 31 (spec/95_test_vectors.md section 0, V-KEY-2). -/
def countingKey : Vector Word 8 :=
  keyFragments 0x000102030405060708090A0B0C0D0E0F101112131415161718191A1B1C1D1E1F#256

/-- V-BLK-4a: the ciphertext of the block of zeros. -/
theorem encryptBlock_identityTable_zero :
    encryptBlock identityTable 0 countingKey = 0x8BAAC4CFCA6F98F5#64 := by
  decide

/-- V-BLK-5.4: that ciphertext encrypted again. -/
theorem encryptBlock_identityTable_ciphertext :
    encryptBlock identityTable 0x8BAAC4CFCA6F98F5#64 countingKey = 0xD629FAF4E8CC377C#64 := by
  decide

/-- Settles O20: encrypting the ciphertext of the block of zeros gives a block that is not zero. -/
theorem wrongKeyOrderIsDetectable : Obligations.WrongKeyOrderIsDetectable := by
  refine ⟨identityTable, 0, countingKey, ?_⟩
  rw [encryptBlock_identityTable_zero, encryptBlock_identityTable_ciphertext]
  decide

end Sys2Proof.Machine
end

section
/-!
PROOFS. The block transform (spec/44_block_commands.md section 3): the loop of R137, and the transforms of the
two directions as inverses of each other (R138, R139).
-/

namespace Sys2Proof.Machine

variable {S : SBoxTable} {d d' : Direction} {key : Vector Word 8} {p : Word × Word} {n : Nat}

/-! ### The loop -/

/-- The terminal flag of round `n`, by its number (R112, R137). -/
theorem ofNat_beq_terminalRound (hn : n < 32) :
    (BitVec.ofNat 5 n == Config.terminalRound) = (n == 31) := by
  rw [Bool.eq_iff_iff, beq_iff_eq, beq_iff_eq, Config.terminalRound]
  bv_omega

/-- The rounds 0 to `n - 1` are the loop over their numbers (R137). -/
theorem roundsFrom_eq_foldl (hn : n ≤ 32) :
    roundsFrom S d key p n = (List.range n).foldl
      (fun q r => feistelRound S q.1 q.2 key[ks d (BitVec.ofNat 5 r)] (r == 31)) p := by
  induction n with
  | zero => rfl
  | succ n ih =>
    rw [roundsFrom_succ, List.range_succ, List.foldl_append, ← ih (by omega), blockRound,
      ofNat_beq_terminalRound hn]
    rfl

/-- Settles O18: the rounds of the transform are the loop over 32 numbers. -/
theorem blockTransformIsTheLoop : Obligations.BlockTransformIsTheLoop :=
  fun _ _ _ _ => blockTransform_of (roundsFrom_eq_foldl le_rfl)

/-! ### The inverse transform

With the fragments in reverse order, each round undoes one round on the swapped halves; the terminal rounds,
which do not swap, put the first and the last of them right (the proof sketch of R138). -/

/-- Adding the same word twice adds nothing. -/
theorem xor_xor_self_word (a b : Word) : a ^^^ b ^^^ b = a := by
  rw [BitVec.xor_assoc, BitVec.xor_self, BitVec.xor_zero]

/-- A round between the first and the last undoes, on the swapped halves, a round with the same fragment. -/
theorem blockRound_swap_undo {rc rc' : BitVec 5} (hk : ksel key d' rc' = ksel key d rc)
    (h : rc ≠ 31) (h' : rc' ≠ 31) :
    blockRound S d' key rc' (blockRound S d key rc p).swap = p.swap := by
  rw [blockRound_swap S d key h, blockRound_swap S d' key h', hk, Prod.swap_prod_mk,
    xor_xor_self_word]
  rfl

/-- A first round undoes a terminal round with the same fragment, and leaves the halves swapped. -/
theorem blockRound_undo_terminal {rc' : BitVec 5} (hk : ksel key d' rc' = ksel key d 31)
    (h' : rc' ≠ 31) : blockRound S d' key rc' (blockRound S d key 31 p) = p.swap := by
  rw [blockRound_terminal, blockRound_swap S d' key h', hk, xor_xor_self_word]
  rfl

/-- A terminal round undoes, on the swapped halves, a first round with the same fragment. -/
theorem blockRound_terminal_undo {rc : BitVec 5} (hk : ksel key d' 31 = ksel key d rc)
    (h : rc ≠ 31) : blockRound S d' key 31 (blockRound S d key rc p).swap = p := by
  rw [blockRound_swap S d key h, blockRound_terminal, hk, Prod.swap_prod_mk, xor_xor_self_word]

/-- The direction `d'` takes the fragments of `d` in reverse order (R123). -/
def takesReversed (d' d : Direction) : Prop := ∀ rc : BitVec 5, ks d' rc = ks d (31 - rc)

theorem takesReversed_decrypt_encrypt : takesReversed .decrypt .encrypt :=
  ks_decrypt_eq_ks_encrypt_sub

theorem takesReversed_encrypt_decrypt : takesReversed .encrypt .decrypt := by
  intro rc
  rw [ks_decrypt_eq_ks_encrypt_sub, sub_sub_cancel]

theorem takesReversed.ksel_eq (hd : takesReversed d' d) {m n : Nat} (h : m + n = 31) :
    ksel key d' (BitVec.ofNat 5 n) = ksel key d (BitVec.ofNat 5 m) := by
  have hm : 31 - BitVec.ofNat 5 n = BitVec.ofNat 5 m := by bv_omega
  exact ksel_congr key ((hd _).trans (by rw [hm]))

/-- After its round `n`, the reversed transform holds the swapped halves from before round `m = 31 - n`. -/
theorem roundsFrom_reversed (hd : takesReversed d' d) {m : Nat} (h : m + n = 31) (hm : m ≠ 0) :
    roundsFrom S d' key (roundsFrom S d key p 32) (n + 1) = (roundsFrom S d key p m).swap := by
  induction n generalizing m with
  | zero =>
    obtain rfl : m = 31 := h
    exact blockRound_undo_terminal (hd.ksel_eq rfl) (by decide)
  | succ n ih =>
    rw [roundsFrom_succ, ih (m := m + 1) (by omega) (by omega), roundsFrom_succ]
    exact blockRound_swap_undo (hd.ksel_eq h) (by bv_omega) (by bv_omega)

/-- The 32 rounds with the fragments in reverse order give the first halves back. -/
theorem roundsFrom_reversed_all (hd : takesReversed d' d) :
    roundsFrom S d' key (roundsFrom S d key p 32) 32 = p := by
  rw [roundsFrom_succ S d', roundsFrom_reversed hd (m := 1) rfl one_ne_zero]
  exact blockRound_terminal_undo (hd.ksel_eq (m := 0) rfl) (by decide)

/-- The transform with the fragments in reverse order is the inverse (R138, R139). -/
theorem blockTransform_leftInverse (S : SBoxTable) (key : Vector Word 8)
    (hd : takesReversed d' d) :
    Function.LeftInverse (blockTransform S d' · key) (blockTransform S d · key) := by
  intro b
  obtain ⟨q, hq⟩ : ∃ q, roundsFrom S d key (leftHalf b, rightHalf b) 32 = q := ⟨_, rfl⟩
  have hback : roundsFrom S d' key q 32 = (leftHalf b, rightHalf b) :=
    hq ▸ roundsFrom_reversed_all hd
  dsimp only
  rw [blockTransform_of hq, blockTransform_of (by rw [leftHalf_append, rightHalf_append, hback])]
  exact append_halves b

/-- Settles O19: decryption takes the fragments of encryption in reverse order. -/
theorem decryptionUndoesEncryption : Obligations.DecryptionUndoesEncryption :=
  fun S b key => blockTransform_leftInverse S key takesReversed_decrypt_encrypt b

/-- Settles O21: each direction takes the other's fragments in reverse order, so each transform has the other
as its inverse on both sides. -/
theorem blockTransformsAreBijections : Obligations.BlockTransformsAreBijections := by
  intro S key
  have hdec := blockTransform_leftInverse S key takesReversed_decrypt_encrypt
  have henc := blockTransform_leftInverse S key takesReversed_encrypt_decrypt
  exact ⟨henc, ⟨hdec.injective, henc.surjective⟩, henc.injective, hdec.surjective⟩

end Sys2Proof.Machine
end

section
/-!
PROOFS. The edges of the block commands and of the round FSM (spec/44_block_commands.md sections 1 and 2): the
accepted commands (R130 to R132), the RUN edge with and without a command (R133 to R135), and the edge as the
one step function of R136.
-/

namespace Sys2Proof.Machine

variable {s t : State} {e : EdgeInput} {i : Instr} {S : SBoxTable} {c : ErrCode}

/-! ### The accepted commands -/

/-- Settles O22: both commands are accepted, and an accepted one latches the halves of its block. -/
theorem blockCommandsLatchTheBlock : Obligations.BlockCommandsLatchTheBlock := by
  intro s b hu hst hk
  rw [exec_of_unreset_false hu, exec_of_unreset_false hu, commandEdge_enc_accepted b hst hk,
    commandEdge_dec_accepted b hst hk]
  exact ⟨rfl, rfl⟩

/-- What a command in RUN leaves is the RUN edge but for `ERR` (R163, R166). -/
theorem runEdge_eq_reject_err (S : SBoxTable) (s : State) (c : ErrCode) :
    runEdge S s = reject s.err (reject c (runEdge S s)) := by
  obtain ⟨-, -, -, herr, -⟩ := runEdge_frame S s
  rw [← herr]
  rfl

/-- Settles O23: in IDLE the command writes the fragments of its operand; in RUN it leaves what the edge
leaves without it, which keeps the key, and writes its code. -/
theorem loadkeyEdge_spec : Obligations.LoadkeyEdge := by
  intro s k hu
  refine ⟨fun hst => ⟨keyFragments k, keyFragments_get k, ?_⟩, fun hst => ?_⟩
  · rw [exec_of_unreset_false hu, commandEdge_loadkey_idle k hst]
    rfl
  · obtain ⟨hkey, hkv, -⟩ := runEdge_frame Config.sbox s
    refine ⟨reject .busy (runEdge Config.sbox s), ?_, hkey, hkv, rfl, ?_⟩
    · rw [exec_of_unreset_false hu, commandEdge_run hst]
      rfl
    · rw [noCommandEdge_of_unreset_false hu, stateEdge_run hst]
      exact congrArg _ (runEdge_eq_reject_err _ s .busy)

/-! ### The RUN edge -/

/-- What a RUN edge leaves in `ERR` where it held `c`: the code of the command presented, if there is one
(R66, R163, R164). -/
def errAfterRunEdge (e : EdgeInput) (c : ErrCode) : ErrCode :=
  if e.cmdValid = false then c else if e.cmd = 0b11 then .illegal else .busy

theorem errAfterRunEdge_of_no_command (hv : e.cmdValid = false) : errAfterRunEdge e c = c := if_pos hv

/-- The code of a command rejected in RUN is read off `cmd` (R163, R164). -/
theorem errAfterRunEdge_of_instr (hd : decode e = .instr i) : errAfterRunEdge e c = runCode i := by
  obtain ⟨rst, valid, cmd, b, k⟩ := e
  cases valid with
  | false => simp [decode] at hd
  | true =>
    obtain rfl | rfl | rfl | rfl := cmd_cases cmd <;> obtain rfl := Decoded.instr.inj hd <;> rfl

/-- A RUN edge performs its round whatever command is presented; the command only writes `ERR` (R134). -/
theorem edgeState_run (hst : s.st = .run) :
    edgeState S e s = reject (errAfterRunEdge e s.err) (runEdge S s) := by
  cases hd : decode e with
  | instr i => rw [edgeState_command hd, commandEdge_run hst, errAfterRunEdge_of_instr hd]
  | reject why =>
    have hv := exists_decode_eq_reject_iff.1 ⟨why, hd⟩
    rw [edgeState_noCommand hv, stateEdge_run hst, errAfterRunEdge_of_no_command hv]
    exact runEdge_eq_reject_err S s s.err

/-- In an engine that has been reset, an edge without reset has a next state. -/
theorem clockEdge_of_no_reset (hu : s.unreset = false) (hr : e.rst = false) :
    clockEdge e s = .next (edgeState Config.sbox e s) :=
  clockEdge_eq_next_iff.2 (.inr ⟨hr, hu, rfl⟩)

/-- An edge without a command does what the state requires, whatever the other ports hold (R66). -/
theorem clockEdge_of_no_command (hu : s.unreset = false) (hr : e.rst = false)
    (hv : e.cmdValid = false) : clockEdge e s = .next (stateEdge Config.sbox s) := by
  rw [clockEdge_of_no_reset hu hr, edgeState_noCommand hv]

/-- A RUN edge writes the halves of its round (R134, R135). -/
theorem runEdge_halves (S : SBoxTable) (s : State) :
    ((runEdge S s).left, (runEdge S s).right) = blockRound S s.dir s.key s.rc (s.left, s.right) := by
  obtain ⟨-, h⟩ | ⟨-, h⟩ := runEdge_cases S s <;> rw [h] <;> rfl

/-- Settles O33: the edge is what the state requires, and no port but `rst` and `cmd_valid` is read. -/
theorem edgeWithoutCommand : Obligations.EdgeWithoutCommand := by
  intro s e hu hr hv
  rw [clockEdge_of_no_command hu hr hv]
  refine ⟨fun hst => by rw [stateEdge_idle hst], fun hst => ⟨_, rfl, stateEdge_err _ s, ?_⟩,
    fun e' hr' hv' => clockEdge_of_no_command hu hr' hv'⟩
  rw [stateEdge_run hst]
  exact runEdge_halves Config.sbox s

/-- Settles O34: before the last round the terminal flag is 0, and `RC` does not wrap. -/
theorem runEdgePerformsRound : Obligations.RunEdgePerformsRound := by
  intro s e hu hr hst hrc
  refine ⟨_, rfl, ?_, toNat_add_one_of_ne_last hrc⟩
  rw [clockEdge_of_no_reset hu hr, edgeState_run hst, runEdge_not_last hrc,
    blockRound_swap _ _ _ hrc]
  rfl

/-- Settles O35: at `RC = 31` the terminal flag is 1. -/
theorem completionEdge : Obligations.CompletionEdge := by
  intro s e hu hr hst hrc
  refine ⟨_, rfl, _, ?_, rfl, rfl, rfl⟩
  rw [clockEdge_of_no_reset hu hr, edgeState_run hst, runEdge_last hrc, hrc]
  rfl

/-! ### The step function -/

theorem keyFragments_eq_ofFn (k : KeyBits) :
    keyFragments k = Vector.ofFn fun i : Fin 8 => k.extractLsb' (224 - 32 * i.val) 32 :=
  rfl

/-- In RUN the rule's step function is the RUN edge with the code of the command presented. -/
theorem stepFunction_run (hr : e.rst = false) (hst : s.st = .run) :
    stepFunction S s e = reject (errAfterRunEdge e s.err) (runEdge S s) := by
  by_cases hrc : s.rc = 31
  · rw [runEdge_last hrc]
    cases hv : e.cmdValid <;>
      simp [stepFunction, errAfterRunEdge, reject, completeBlock, blockRound, ksel, Config.terminalRound,
        hr, hst, hv, hrc]
  · have hne : ¬ s.rc = 31#5 := hrc
    rw [runEdge_not_last hrc]
    cases hv : e.cmdValid <;>
      simp [stepFunction, errAfterRunEdge, reject, advanceRound, blockRound, ksel, Config.terminalRound,
        hr, hst, hv, hne]

/-- In IDLE the rule's step function is the meaning of the command presented, if there is one. -/
theorem stepFunction_idle (hr : e.rst = false) (hst : s.st = .idle) :
    stepFunction S s e = edgeState S e s := by
  obtain ⟨rst, valid, cmd, b, k⟩ := e
  obtain rfl : rst = false := hr
  cases valid with
  | false =>
    rw [edgeState_noCommand rfl, stateEdge_idle hst]
    simp [stepFunction, hst]
  | true =>
    obtain rfl | rfl | rfl | rfl := cmd_cases cmd
    · rw [edgeState_command (i := .enc b) rfl]
      cases hk : s.keyValid with
      | false => simp [commandEdge_enc_noKey b hst hk, stepFunction, hst, hk, reject]
      | true =>
        simp [commandEdge_enc_accepted b hst hk, stepFunction, hst, hk, clearError, latchBlock,
          leftHalf, rightHalf]
    · rw [edgeState_command (i := .dec b) rfl]
      cases hk : s.keyValid with
      | false => simp [commandEdge_dec_noKey b hst hk, stepFunction, hst, hk, reject]
      | true =>
        simp [commandEdge_dec_accepted b hst hk, stepFunction, hst, hk, clearError, latchBlock,
          leftHalf, rightHalf]
    · rw [edgeState_command (i := .loadkey k) rfl, commandEdge_loadkey_idle k hst,
        keyFragments_eq_ofFn]
      simp [stepFunction, hst, clearError, writeKey]
    · rw [edgeState_command (i := .illegal) rfl, commandEdge_illegal_idle hst]
      simp [stepFunction, hst, reject]

/-- The rule's step function is an edge without reset, composed of the commands' meanings (R136). -/
theorem stepFunction_eq_edgeState (hr : e.rst = false) : stepFunction S s e = edgeState S e s := by
  cases hst : s.st with
  | idle => exact stepFunction_idle hr hst
  | run => rw [stepFunction_run hr hst, edgeState_run hst]

theorem stepFunction_reset (hr : e.rst = true) : stepFunction S s e = resetEdge s := if_pos hr

/-- Settles O36: reset comes first in the step function too, and its other branches are those of the commands'
meanings and of the RUN edge. -/
theorem edgeIsTheStepFunction : Obligations.EdgeIsTheStepFunction := by
  refine ⟨fun s e hu => ?_, fun s => ⟨rfl, rfl⟩⟩
  cases hr : e.rst with
  | false => rw [clockEdge_of_no_reset hu hr, stepFunction_eq_edgeState hr]
  | true => rw [clockEdge_eq_with, clockEdgeWith_reset hr, stepFunction_reset hr]

end Sys2Proof.Machine
end

section
/-!
PROOFS. The timing of a block (spec/44_block_commands.md section 4): the state after each number of RUN edges,
written out (R141, R145), the result (R137, R140), the next command (R142), and the control state as a function
of control alone (R146).
-/

namespace Sys2Proof.Machine

variable {S : SBoxTable} {s t : State} {e : EdgeInput} {es : List EdgeInput} {c : ErrCode}
  {d : Direction} {b : Block} {m n : Nat}

/-! ### The RUN edges in order -/

/-- The state in which the rounds 0 to `n - 1` of the block latched in `s` are done (R134). -/
def afterRounds (S : SBoxTable) (n : Nat) (s : State) : State :=
  { s with left := (roundsFrom S s.dir s.key (s.left, s.right) n).1,
           right := (roundsFrom S s.dir s.key (s.left, s.right) n).2, rc := BitVec.ofNat 5 n }

/-- What a run of RUN edges leaves in `ERR` where it held `c`. -/
def errAfterRunEdges (es : List EdgeInput) (c : ErrCode) : ErrCode :=
  es.foldl (fun c e => errAfterRunEdge e c) c

theorem errAfterRunEdges_concat (es : List EdgeInput) (e : EdgeInput) (c : ErrCode) :
    errAfterRunEdges (es ++ [e]) c = errAfterRunEdge e (errAfterRunEdges es c) :=
  List.foldl_concat ..

/-- The state in which the block latched in `s` is done (R135, R137). -/
def afterBlock (S : SBoxTable) (s : State) : State :=
  completeBlock (roundsFrom S s.dir s.key (s.left, s.right) 32) s

theorem afterRounds_zero (hrc : s.rc = 0) : afterRounds S 0 s = s := by
  show { s with rc := 0 } = s
  rw [← hrc]

/-- A RUN edge performs the next round of the block (R134). -/
theorem runEdge_afterRounds (hn : n < 31) (c : ErrCode) :
    runEdge S (reject c (afterRounds S n s)) = reject c (afterRounds S (n + 1) s) := by
  have hrc : (reject c (afterRounds S n s)).rc ≠ 31 := by
    show BitVec.ofNat 5 n ≠ 31
    bv_omega
  rw [runEdge_not_last hrc]
  simp only [reject, advanceRound, afterRounds, roundsFrom_succ, BitVec.ofNat_add]
  rfl

/-- The RUN edge after 31 rounds completes the block (R135). -/
theorem runEdge_afterRounds_last (c : ErrCode) :
    runEdge S (reject c (afterRounds S 31 s)) = reject c (afterBlock S s) :=
  runEdge_last rfl

/-- An edge without reset in RUN is the RUN edge with the code of the command presented. -/
theorem clockEdgeWith_run (hu : s.unreset = false) (hst : s.st = .run) (hr : e.rst = false) :
    clockEdgeWith S e s = .next (reject (errAfterRunEdge e s.err) (runEdge S s)) := by
  rw [clockEdgeWith_no_reset hr, clocked_of_unreset_false hu, edgeState_run hst]

theorem noReset_cons_iff : noReset (e :: es) ↔ e.rst = false ∧ noReset es := List.forall_mem_cons

/-- Of two codes the later one stands in `ERR`. -/
theorem reject_reject (c c' : ErrCode) (s : State) : reject c (reject c' s) = reject c s := rfl

/-- From the state with `m` rounds done, each edge performs one more, whatever is presented (R145). -/
theorem runEdges_afterRounds (hu : s.unreset = false) (hst : s.st = .run) (hes : noReset es)
    (hm : m + es.length ≤ 31) (c : ErrCode) :
    runEdges S es (reject c (afterRounds S m s)) =
      .next (reject (errAfterRunEdges es c) (afterRounds S (m + es.length) s)) := by
  induction es generalizing m c with
  | nil => rfl
  | cons e es ih =>
    obtain ⟨hr, hes⟩ := noReset_cons_iff.1 hes
    rw [List.length_cons] at hm ⊢
    rw [runEdges, clockEdgeWith_run (s := reject c (afterRounds S m s)) hu hst hr,
      runEdge_afterRounds (by omega), andThen_next,
      show m + (es.length + 1) = m + 1 + es.length by omega]
    exact ih hes (by omega) (errAfterRunEdge e c)

/-- Two runs in a row are one run. -/
theorem runEdges_append (es fs : List EdgeInput) (s : State) :
    runEdges S (es ++ fs) s = andThen (runEdges S es s) (runEdges S fs) := by
  induction es generalizing s with
  | nil => rfl
  | cons e es ih =>
    rw [List.cons_append, runEdges, runEdges]
    cases clockEdgeWith S e s with
    | next t => exact ih t
    | fault r => rfl
    | refused r => rfl

/-- The RUN edges before the completion edge (R141, R145). -/
theorem runEdges_rounds (hu : s.unreset = false) (hst : s.st = .run) (hrc : s.rc = 0)
    (hes : noReset es) (hlen : es.length ≤ 31) :
    runEdges S es s =
      .next (reject (errAfterRunEdges es s.err) (afterRounds S es.length s)) := by
  have h := runEdges_afterRounds (S := S) (m := 0) hu hst hes (by omega) s.err
  rw [afterRounds_zero hrc, reject_err_self, Nat.zero_add] at h
  exact h

/-- 32 RUN edges complete the block (R141). -/
theorem runEdges_block (hu : s.unreset = false) (hst : s.st = .run) (hrc : s.rc = 0)
    (hes : noReset es) (hlen : es.length = 32) :
    runEdges S es s = .next (reject (errAfterRunEdges es s.err) (afterBlock S s)) := by
  obtain rfl | ⟨fs, e, rfl⟩ := es.eq_nil_or_concat'
  · cases hlen
  have hfs : noReset fs := fun x hx => hes x (List.mem_append_left _ hx)
  have hr : e.rst = false := hes e (by simp)
  have hl : fs.length = 31 := by simpa using hlen
  have hlast := clockEdgeWith_run (S := S)
    (s := reject (errAfterRunEdges fs s.err) (afterRounds S 31 s)) hu hst hr
  rw [runEdge_afterRounds_last, reject_err, reject_reject] at hlast
  rw [runEdges_append, runEdges_rounds hu hst hrc hfs hl.le, andThen_next, hl, runEdges, hlast,
    andThen_next, runEdges, errAfterRunEdges_concat]

/-! ### From acceptance on -/

/-- The edge that accepts a block command latches its block (R130, R131). -/
theorem clockEdgeWith_blockCommand (hu : s.unreset = false) (hst : s.st = .idle)
    (hk : s.keyValid = true) (hr : e.rst = false) (hd : decode e = .instr (blockCommand d b)) :
    clockEdgeWith S e s = .next (clearError (latchBlock d (leftHalf b) (rightHalf b) s)) := by
  rw [clockEdgeWith_no_reset hr, clocked_of_unreset_false hu, edgeState_command hd,
    commandEdge_blockCommand_accepted S d b hst hk]

/-- The state in which the rounds 0 to `n - 1` of a block accepted in `s` are done. -/
def roundsOf (S : SBoxTable) (d : Direction) (b : Block) (n : Nat) (s : State) : State :=
  afterRounds S n (clearError (latchBlock d (leftHalf b) (rightHalf b) s))

/-- The state in which a block accepted in `s` is done. -/
def doneWith (S : SBoxTable) (d : Direction) (b : Block) (s : State) : State :=
  afterBlock S (clearError (latchBlock d (leftHalf b) (rightHalf b) s))

/-- The result of an accepted block is its transform under the loaded key (R137). -/
theorem doneWith_dout : (doneWith S d b s).dout = blockTransform S d b s.key :=
  (blockTransform_of rfl).symm

section Accepted

variable (hu : s.unreset = false) (hst : s.st = .idle) (hk : s.keyValid = true)
  (hr : e.rst = false) (hd : decode e = .instr (blockCommand d b)) (hes : noReset es)
include hu hst hk hr hd hes

/-- The acceptance of a block and up to 31 edges after it (R141, R145). -/
theorem runOn_rounds (hlen : es.length ≤ 31) :
    runOn (e :: es) s =
      .next (reject (errAfterRunEdges es .none) (roundsOf Config.sbox d b es.length s)) := by
  rw [runOn_eq_runEdges, runEdges, clockEdgeWith_blockCommand hu hst hk hr hd, andThen_next]
  exact runEdges_rounds hu rfl rfl hes hlen

/-- The acceptance of a block and the 32 edges after it (R141). -/
theorem runOn_block (hlen : es.length = 32) :
    runOn (e :: es) s =
      .next (reject (errAfterRunEdges es .none) (doneWith Config.sbox d b s)) := by
  rw [runOn_eq_runEdges, runEdges, clockEdgeWith_blockCommand hu hst hk hr hd, andThen_next]
  exact runEdges_block hu rfl rfl hes hlen

end Accepted

/-- Settles O37: the state after the acceptance and `n` RUN edges, read field by field. -/
theorem roundsRunInOrder : Obligations.RoundsRunInOrder := by
  intro s e es d b hu hst hk hr hd hes hlen
  have hrc : (BitVec.ofNat 5 es.length).toNat = es.length := by
    rw [BitVec.toNat_ofNat]
    omega
  exact ⟨_, runOn_rounds hu hst hk hr hd hes hlen, rfl, rfl, hrc, rfl, rfl, rfl, rfl, rfl, rfl⟩

/-- Settles O38: the state after the acceptance and 32 RUN edges, read field by field. -/
theorem blockCompletesAfterThirtyTwoEdges : Obligations.BlockCompletesAfterThirtyTwoEdges := by
  intro s e es d b hu hst hk hr hd hes hlen
  exact ⟨_, runOn_block hu hst hk hr hd hes hlen, doneWith_dout, rfl, rfl, rfl, rfl, rfl, rfl, rfl,
    rfl, hk⟩

/-- Settles O40: in both runs the result is the transform of the block under the one key. -/
theorem resultDependsOnlyOnBlockAndKey : Obligations.ResultDependsOnlyOnBlockAndKey := by
  intro s₁ s₂ e₁ e₂ es₁ es₂ d b hu₁ hst₁ hk₁ hu₂ hst₂ hk₂ hkey hr₁ hd₁ hes₁ hlen₁ hr₂ hd₂ hes₂ hlen₂
  refine ⟨_, _, runOn_block hu₁ hst₁ hk₁ hr₁ hd₁ hes₁ hlen₁,
    runOn_block hu₂ hst₂ hk₂ hr₂ hd₂ hes₂ hlen₂, rfl, rfl, ?_⟩
  show (doneWith Config.sbox d b s₁).dout = (doneWith Config.sbox d b s₂).dout
  rw [doneWith_dout, doneWith_dout, hkey]

/-! ### The next command -/

/-- In RUN no command is accepted. -/
theorem accepts_of_run (i : Instr) (hst : s.st = .run) : accepts i s = false := by
  cases i <;> simp [accepts, hst]

/-- In IDLE with a key every command but the reserved code is accepted. -/
theorem accepts_of_idle {i : Instr} (hst : s.st = .idle) (hk : s.keyValid = true)
    (hi : i ≠ .illegal) : accepts i s = true := by
  cases i <;> simp [accepts, hst, hk] at hi ⊢

theorem runCode_eq_busy_or_illegal (i : Instr) : runCode i = .busy ∨ runCode i = .illegal := by
  cases i <;> simp [runCode]

/-- Settles O39: after up to 31 RUN edges the engine is in RUN, after 32 it is in IDLE with its key. -/
theorem nextCommandAfterThirtyThreeEdges : Obligations.NextCommandAfterThirtyThreeEdges := by
  intro s e es d b hu hst hk hr hd hes
  refine ⟨fun hlen => ⟨_, runOn_rounds hu hst hk hr hd hes hlen, fun i =>
      ⟨accepts_of_run i rfl, _, exec_of_unreset_false hu, ?_⟩⟩,
    fun hlen => ⟨_, runOn_block hu hst hk hr hd hes hlen, fun i hi => ?_⟩⟩
  · rw [commandEdge_run rfl]
    exact runCode_eq_busy_or_illegal i
  · have ha := accepts_of_idle
      (s := reject (errAfterRunEdges es .none) (doneWith Config.sbox d b s)) rfl hk hi
    exact ⟨ha, _, exec_of_unreset_false hu, commandEdge_err_of_accepts ha⟩

/-! ### The control state -/

/-- The ports show of the control state its own fields only. -/
theorem status_congr {s₁ s₂ : State} (h : controlPart s₁ = controlPart s₂) :
    status s₁ = status s₂ := by
  simp only [controlPart, Prod.mk.injEq] at h
  obtain ⟨hst, -, -, hkv, hdone, herr, -⟩ := h
  simp only [status, busy, hst, hkv, hdone, herr]

/-- In the step function every test and every write of the control state is on control alone (R146). -/
theorem controlPart_stepFunction_congr {s₁ s₂ : State} {e₁ e₂ : EdgeInput}
    (hs : controlPart s₁ = controlPart s₂) (he : e₁.controlPart = e₂.controlPart) :
    controlPart (stepFunction S s₁ e₁) = controlPart (stepFunction S s₂ e₂) := by
  obtain ⟨key₁, kv, st, rc, dir, l₁, r₁, dout₁, done, err, u, ins₁⟩ := s₁
  obtain ⟨key₂, kv', st', rc', dir', l₂, r₂, dout₂, done', err', u', ins₂⟩ := s₂
  obtain ⟨rst, valid, cmd, b₁, k₁⟩ := e₁
  obtain ⟨rst', valid', cmd', b₂, k₂⟩ := e₂
  cases hs
  cases he
  cases rst with
  | true => rfl
  | false =>
    cases st with
    | run =>
      by_cases hrc : rc = 31
      · subst hrc
        cases valid <;> rfl
      · have hne : ¬ rc = 31#5 := hrc
        cases valid <;> simp [stepFunction, controlPart, hne]
    | idle =>
      cases valid with
      | false => simp [stepFunction, controlPart]
      | true =>
        obtain rfl | rfl | rfl | rfl := cmd_cases cmd <;> cases kv <;>
          simp [stepFunction, controlPart]

/-- An edge that has a meaning gives the state of the step function (R136, R182). -/
theorem clockEdge_eq_next_iff_stepFunction :
    clockEdge e s = .next t ↔
      (e.rst = true ∨ s.unreset = false) ∧ t = stepFunction Config.sbox s e := by
  rw [clockEdge_eq_next_iff]
  cases hr : e.rst with
  | false => simp [stepFunction_eq_edgeState hr]
  | true => simp [stepFunction_reset hr]

/-- An edge takes engines with one control state to engines with one control state. -/
theorem exists_clockEdge_next_of_control {s₁ s₂ t₁ : State} {e₁ e₂ : EdgeInput}
    (hs : controlPart s₁ = controlPart s₂) (he : e₁.controlPart = e₂.controlPart)
    (h : clockEdge e₁ s₁ = .next t₁) :
    ∃ t₂, clockEdge e₂ s₂ = .next t₂ ∧ controlPart t₁ = controlPart t₂ := by
  obtain ⟨hmeaning, rfl⟩ := clockEdge_eq_next_iff_stepFunction.1 h
  have hrst : e₁.rst = e₂.rst := congrArg Prod.fst he
  have hu : s₁.unreset = s₂.unreset := congrArg (fun p => p.2.2.2.2.2.2) hs
  rw [hrst, hu] at hmeaning
  exact ⟨_, clockEdge_eq_next_iff_stepFunction.2 ⟨hmeaning, rfl⟩,
    controlPart_stepFunction_congr hs he⟩

theorem andThen_eq_next_iff {σ τ : Type} {o : Host.Outcome σ Fault Refusal}
    {f : σ → Host.Outcome τ Fault Refusal} {a : τ} :
    andThen o f = .next a ↔ ∃ x, o = .next x ∧ f x = .next a := by
  cases o <;> simp [andThen]

/-- Settles O41: an edge keeps two control states equal, so each run of edges does. -/
theorem controlIsDataIndependent : Obligations.ControlIsDataIndependent := by
  intro es₁ es₂ s₁ s₂ t₁ hes hs h
  suffices ∃ t₂, runOn es₂ s₂ = .next t₂ ∧ controlPart t₁ = controlPart t₂ by
    obtain ⟨t₂, ht₂, ht⟩ := this
    exact ⟨t₂, ht₂, ht, status_congr ht⟩
  induction es₁ generalizing es₂ s₁ s₂ with
  | nil =>
    obtain rfl : es₂ = [] := by simpa using hes.symm
    cases h
    exact ⟨s₂, rfl, hs⟩
  | cons e₁ es₁ ih =>
    obtain ⟨e₂, es₂, rfl, he, hes⟩ := List.map_eq_cons_iff.1 hes.symm
    rw [runOn_cons] at h ⊢
    obtain ⟨u₁, hu₁, h⟩ := andThen_eq_next_iff.1 h
    obtain ⟨u₂, hu₂, hu⟩ := exists_clockEdge_next_of_control hs he.symm hu₁
    rw [hu₂, andThen_next]
    exact ih es₂ u₁ u₂ hes.symm hu h

end Sys2Proof.Machine
end

section
/-!
PROOFS. The host's contract (spec/44_block_commands.md section 5): it keeps `ERR` at NONE, and before the first
reset edge it asks for a reset or no command (R147, R152).
-/

namespace Sys2Proof.Machine

variable {s t : State} {e : EdgeInput} {es : List EdgeInput} {S : SBoxTable}

/-- An edge without reset that keeps the contract carries no command or an accepted one. -/
theorem edgeState_err_of_contractKept (hr : e.rst = false) (hc : contractKept e s = true)
    (he : s.err = .none) : (edgeState S e s).err = .none := by
  rw [contractKept, hr, Bool.false_or] at hc
  cases hd : decode e with
  | instr i =>
    rw [hd, Bool.and_eq_true] at hc
    rw [edgeState_command hd, commandEdge_err_of_accepts hc.2]
  | reject why =>
    rw [edgeState_noCommand (exists_decode_eq_reject_iff.1 ⟨why, hd⟩), stateEdge_err, he]

/-- An edge that keeps the contract leaves an engine that has been reset, with `ERR` NONE (R152). -/
theorem clockEdge_of_contractKept (hc : contractKept e s = true)
    (h : e.rst = true ∨ s.unreset = false ∧ s.err = .none) :
    ∃ t, clockEdge e s = .next t ∧ t.unreset = false ∧ t.err = .none := by
  cases hr : e.rst with
  | true => exact ⟨resetEdge s, clockEdge_eq_next_iff.2 (.inl ⟨hr, rfl⟩), rfl, rfl⟩
  | false =>
    obtain ⟨hu, he⟩ := h.resolve_left (by simp [hr])
    exact ⟨_, clockEdge_of_no_reset hu hr, (edgeEffect_edgeState _ e s).unreset_eq.trans hu,
      edgeState_err_of_contractKept hr hc he⟩

/-- Before the first reset edge the contract is kept by a reset and by an edge without a command (R182). -/
theorem contractKept_of_unreset_iff (hu : s.unreset = true) :
    contractKept e s = true ↔ e.rst = true ∨ e.cmdValid = false := by
  rw [contractKept, Bool.or_eq_true, ← exists_decode_eq_reject_iff]
  cases decode e <;> simp [hu]

/-- Edges without reset before the first reset edge: the contract allows no command at them, and goes on from
the same state. -/
theorem hostKeepsContract_append_iff {before : List EdgeInput} (hu : s.unreset = true)
    (hb : noReset before) :
    hostKeepsContract (before ++ es) s ↔
      (∀ e ∈ before, e.cmdValid = false) ∧ hostKeepsContract es s := by
  induction before with
  | nil => simp
  | cons e before ih =>
    obtain ⟨hr, hb⟩ := noReset_cons_iff.1 hb
    rw [List.cons_append, hostKeepsContract, afterEdge_of_unreset hu hr, ih hb,
      contractKept_of_unreset_iff hu, List.forall_mem_cons, hr, and_assoc]
    simp

/-- A run that keeps the contract, after a reset and from `ERR` NONE, ends with `ERR` NONE (R152). -/
theorem runOn_of_hostKeepsContract (hu : s.unreset = false) (he : s.err = .none)
    (hc : hostKeepsContract es s) : ∃ t, runOn es s = .next t ∧ t.err = .none := by
  induction es generalizing s with
  | nil => exact ⟨s, rfl, he⟩
  | cons e es ih =>
    obtain ⟨hkept, hc⟩ := hc
    obtain ⟨u, hedge, huu, hue⟩ := clockEdge_of_contractKept hkept (.inr ⟨hu, he⟩)
    rw [afterEdge_of_next hedge] at hc
    rw [runOn_cons, hedge, andThen_next]
    exact ih huu hue hc

/-- Settles O32: edge by edge before the first reset edge, which gives `ERR` NONE, and along the run from that
edge on. -/
theorem contractKeepsErrorsAway : Obligations.ContractKeepsErrorsAway := by
  refine ⟨fun s e hc h => ?_, fun r e => contractKept_of_unreset_iff rfl, fun r es hes => ?_,
    fun r before e es hb hr hc => ?_⟩
  · obtain ⟨t, ht, -, he⟩ := clockEdge_of_contractKept hc h
    exact ⟨t, ht, he⟩
  · have h := hostKeepsContract_append_iff (s := State.powerUp r) (es := []) rfl hes
    simpa [hostKeepsContract] using h
  · obtain ⟨hno, -, hc⟩ := (hostKeepsContract_append_iff rfl hb).1 hc
    have hedge : clockEdge e (State.powerUp r) = .next (resetEdge (State.powerUp r)) :=
      clockEdge_eq_next_iff.2 (.inl ⟨hr, rfl⟩)
    rw [afterEdge_of_next hedge] at hc
    rw [runOn_cons, hedge, andThen_next]
    exact ⟨hno, runOn_of_hostKeepsContract rfl rfl hc⟩

end Sys2Proof.Machine
end

section
/-!
PROOFS. The bytes of the host (spec/44_block_commands.md section 5, R150): a buffer and its blocks as two
forms of one thing, and the key of 32 bytes as eight fragments (R46, R120).
-/

namespace Sys2Proof.Machine

variable {b : Block} {buffer : List Byte} {bs : List Block} {j : Nat}

/-! ### The bytes of a block -/

/-- Eight bytes as the big-endian number of a block (R45). -/
theorem packBlock_toNat (b0 b1 b2 b3 b4 b5 b6 b7 : Byte) :
    (packBlock b0 b1 b2 b3 b4 b5 b6 b7).toNat =
      [b0, b1, b2, b3, b4, b5, b6, b7].foldl (fun n b => n * 256 + b.toNat) 0 := by
  show BitVec.toNat (b0 ++ b1 ++ b2 ++ b3 ++ b4 ++ b5 ++ b6 ++ b7) = _
  simp only [append_toNat, List.foldl]
  omega

theorem packBlock_eq_ofNat (b0 b1 b2 b3 b4 b5 b6 b7 : Byte) :
    packBlock b0 b1 b2 b3 b4 b5 b6 b7 =
      BitVec.ofNat 64 ([b0, b1, b2, b3, b4, b5, b6, b7].foldl (fun n b => n * 256 + b.toNat) 0) := by
  rw [← packBlock_toNat, BitVec.ofNat_toNat, BitVec.setWidth_eq]

/-- The bytes of a block are the digits of its number in base 256 (R45). -/
theorem blockByte_toNat (b : Block) (j : Fin 8) :
    (blockByte b j).toNat = b.toNat / 2 ^ (56 - 8 * j.val) % 2 ^ 8 := by
  simp [blockByte, BitVec.extractLsb'_toNat, Nat.shiftRight_eq_div_pow]

/-- The bytes of eight packed bytes are those bytes (R150). -/
theorem blockBytes_packBlock (b0 b1 b2 b3 b4 b5 b6 b7 : Byte) :
    blockBytes (packBlock b0 b1 b2 b3 b4 b5 b6 b7) = [b0, b1, b2, b3, b4, b5, b6, b7] := by
  have h0 := b0.isLt
  have h1 := b1.isLt
  have h2 := b2.isLt
  have h3 := b3.isLt
  have h4 := b4.isLt
  have h5 := b5.isLt
  have h6 := b6.isLt
  have h7 := b7.isLt
  simp only [blockBytes, List.cons.injEq, and_true]
  refine ⟨?_, ?_, ?_, ?_, ?_, ?_, ?_, ?_⟩ <;>
    · apply BitVec.eq_of_toNat_eq
      rw [blockByte_toNat, packBlock_toNat]
      simp
      omega

/-- The eight packed bytes are the big-endian words of the first and of the last four (R45). -/
theorem packBlock_eq_append_be32 (b0 b1 b2 b3 b4 b5 b6 b7 : Byte) :
    packBlock b0 b1 b2 b3 b4 b5 b6 b7 =
      (be32 b0 b1 b2 b3 ++ be32 b4 b5 b6 b7 : BitVec (32 + 32)) := by
  apply BitVec.eq_of_toNat_eq
  rw [packBlock_toNat, append_toNat, be32_toNat, be32_toNat]
  simp only [List.foldl]
  omega

/-- The bytes of a block packed again are the block (R150). -/
theorem packBlock_blockByte (b : Block) :
    packBlock (blockByte b 0) (blockByte b 1) (blockByte b 2) (blockByte b 3) (blockByte b 4)
      (blockByte b 5) (blockByte b 6) (blockByte b 7) = b := by
  rw [packBlock_eq_append_be32]
  refine Eq.trans ?_ (append_halves b)
  rw [leftHalf_eq_be32, rightHalf_eq_be32]
  rfl

/-- A block is the big-endian number of its bytes (R45, R150). -/
theorem ofNat_blockBytes (b : Block) :
    BitVec.ofNat 64 ((blockBytes b).foldl (fun n b => n * 256 + b.toNat) 0) = b := by
  rw [blockBytes, ← packBlock_eq_ofNat, packBlock_blockByte]

/-! ### The chunks of a buffer -/

theorem length_flatMap_blockBytes (bs : List Block) :
    (bs.flatMap blockBytes).length = 8 * bs.length := by
  induction bs with
  | nil => rfl
  | cons b bs ih =>
    rw [List.flatMap_cons, List.length_append, ih, List.length_cons, Nat.mul_succ, Nat.add_comm]
    rfl

/-- The blocks of the bytes of blocks are those blocks (R150). -/
theorem blocksOf_flatMap_blockBytes (bs : List Block) : blocksOf (bs.flatMap blockBytes) = bs := by
  induction bs with
  | nil => rfl
  | cons b bs ih =>
    show packBlock _ _ _ _ _ _ _ _ :: blocksOf (bs.flatMap blockBytes) = _
    rw [packBlock_blockByte, ih]

/-- A buffer of whole chunks is the bytes of its blocks (R150). -/
theorem flatMap_blockBytes_blocksOf (h : buffer.length % 8 = 0) :
    (blocksOf buffer).flatMap blockBytes = buffer := by
  induction buffer using blocksOf.induct with
  | case1 b0 b1 b2 b3 b4 b5 b6 b7 rest ih =>
    rw [blocksOf, List.flatMap_cons, blockBytes_packBlock, 
      ih ((Nat.add_mod_right rest.length 8).symm.trans h)]
    rfl
  | case2 buffer hshort =>
    obtain _ | ⟨b0, _ | ⟨b1, _ | ⟨b2, _ | ⟨b3, _ | ⟨b4, _ | ⟨b5, _ | ⟨b6, _ | ⟨b7, rest⟩⟩⟩⟩⟩⟩⟩⟩ :=
      buffer
    case nil => rfl
    case cons.cons.cons.cons.cons.cons.cons.cons =>
      exact (hshort b0 b1 b2 b3 b4 b5 b6 b7 rest rfl).elim
    all_goals simp at h

/-- Bytes `8j` to `8j + 7` of the bytes of blocks are those of block `j` (R150). -/
theorem take_drop_flatMap_blockBytes (h : bs[j]? = some b) :
    ((bs.flatMap blockBytes).drop (8 * j)).take 8 = blockBytes b := by
  induction bs generalizing j with
  | nil => simp at h
  | cons b' bs ih =>
    cases j with
    | zero =>
      obtain rfl : b' = b := by simpa using h
      rfl
    | succ j =>
      rw [← ih (j := j) (by simpa using h)]
      rfl

/-- Block `j` of a buffer of whole chunks is the big-endian number of its bytes `8j` to `8j + 7` (R150). -/
theorem getElem?_blocksOf (h : buffer.length % 8 = 0) (hj : 8 * j + 7 < buffer.length) :
    (blocksOf buffer)[j]? = some (BitVec.ofNat 64
      (((buffer.drop (8 * j)).take 8).foldl (fun n b => n * 256 + b.toNat) 0)) := by
  have hlen := length_flatMap_blockBytes (blocksOf buffer)
  rw [flatMap_blockBytes_blocksOf h] at hlen
  have hb := List.getElem?_eq_getElem (l := blocksOf buffer) (i := j) (by omega)
  have hbytes := take_drop_flatMap_blockBytes hb
  rw [flatMap_blockBytes_blocksOf h] at hbytes
  rw [hbytes, ofNat_blockBytes, hb]

/-! ### The key -/

/-- The fragments of a key of 32 bytes are the big-endian words of its bytes (R46, R120). -/
theorem keyFragments_packKey {key : List Byte} (h : key.length = 32) :
    keyFragments (packKey key) = Vector.ofFn fun i : Fin 8 =>
      be32 (key.getD (4 * i.val) 0) (key.getD (4 * i.val + 1) 0) (key.getD (4 * i.val + 2) 0)
        (key.getD (4 * i.val + 3) 0) := by
  ext1 i hi
  have hb : ∀ n (hn : n < 32), (packKey key).extractLsb' (248 - 8 * n) 8 = key.getD n 0 :=
    fun n hn => keyByte_packKey h ⟨n, hn⟩
  have hf := keyFragments_get (packKey key) ⟨i, hi⟩
  rw [keyFragment_eq_be32, hb _ (by omega), hb _ (by omega), hb _ (by omega), hb _ (by omega)] at hf
  rw [Vector.getElem_ofFn]
  exact hf

end Sys2Proof.Machine
end

section
/-!
PROOFS. The host's calls (spec/44_block_commands.md section 5): the length checks (R148, R149), one call on one
engine (R150), its round trip (R138), and the chunks of a call on several engines (R151).
-/

namespace Sys2Proof.Machine

variable {S : SBoxTable} {d : Direction} {s t : State} {buffer key : List Byte} {b : Block}
  {k : Vector Word 8}

/-! ### The length checks -/

/-- A call with the right lengths passes the checks, in either order (R148, R149). -/
theorem hostChecks_eq_none (hb : buffer.length % 8 = 0) (hk : key.length = 32) :
    hostChecks buffer key = none := by
  simp [hostChecks, Config.blockBytes, Config.keyBytes, hb, hk]

/-- A call with a wrong length fails with the error of a check that failed, in either order (R148, R149). -/
theorem exists_hostChecks_eq_some (h : buffer.length % 8 ≠ 0 ∨ key.length ≠ 32) :
    ∃ err, hostChecks buffer key = some err ∧
      (err = .invalidBufferLength buffer.length ∧ buffer.length % 8 ≠ 0 ∨
        err = .invalidKeyLength ∧ key.length ≠ 32) := by
  by_cases hb : buffer.length % 8 = 0
  · have hk : key.length ≠ 32 := h.resolve_left (not_not.2 hb)
    refine ⟨.invalidKeyLength, ?_, .inr ⟨rfl, hk⟩⟩
    simp [hostChecks, Config.blockBytes, Config.keyBytes, hb, hk]
  by_cases hk : key.length = 32
  · refine ⟨.invalidBufferLength buffer.length, ?_, .inl ⟨rfl, hb⟩⟩
    simp [hostChecks, Config.blockBytes, Config.keyBytes, hb, hk]
  cases horder : Config.hostChecksKeyFirst with
  | false =>
    refine ⟨.invalidBufferLength buffer.length, ?_, .inl ⟨rfl, hb⟩⟩
    simp [hostChecks, Config.blockBytes, horder, hb]
  | true =>
    refine ⟨.invalidKeyLength, ?_, .inr ⟨rfl, hk⟩⟩
    simp [hostChecks, Config.keyBytes, horder, hk]

/-- Settles O56: a failed check gives its error and no run, and passed checks give a run. -/
theorem hostRejectsWrongLengths : Obligations.HostRejectsWrongLengths := by
  intro S d buffer key s
  refine ⟨fun h => ?_, fun hb hk err => ?_⟩
  · obtain ⟨err, hchecks, herr⟩ := exists_hostChecks_eq_some h
    exact ⟨err, by rw [hostCrypt, hchecks], herr⟩
  · simp [hostCrypt, hostChecks_eq_none hb hk]

/-! ### One block -/

/-- The edge at which a host presents a command. -/
theorem clockEdgeWith_encode (hu : s.unreset = false) (i : Instr) :
    clockEdgeWith S (encode i) s = .next (commandEdge S i s) := by
  rw [clockEdgeWith_no_reset rfl, clocked_of_unreset_false hu, edgeState_command (decode_encode i)]

/-- Edges with nothing presented leave `ERR`. -/
theorem errAfterRunEdges_idle (n : Nat) (c : ErrCode) :
    errAfterRunEdges (List.replicate n EdgeInput.idle) c = c := by
  induction n with
  | zero => rfl
  | succ n ih => exact ih

/-- `WAIT` after an accepted block command ends where the block is done (R70, R141). -/
theorem wait_of_latched (hu : s.unreset = false) (hst : s.st = .run) (hrc : s.rc = 0) :
    wait S s = .next (afterBlock S s) := by
  have hes : noReset (List.replicate 32 EdgeInput.idle) :=
    fun e he => by rw [List.eq_of_mem_replicate he]; rfl
  have herr : (afterBlock S s).err = s.err := rfl
  rw [wait, Config.rounds, waitAtMost_eq_runEdges_idle hu,
    runEdges_block hu hst hrc hes List.length_replicate, errAfterRunEdges_idle, ← herr,
    reject_err_self]

/-- An engine that a host may give a block to: in IDLE after a reset, with the key `k`, and with no error. -/
structure ReadyWith (k : Vector Word 8) (s : State) : Prop where
  unreset : s.unreset = false
  st : s.st = .idle
  keyValid : s.keyValid = true
  key : s.key = k
  err : s.err = .none

/-- LOADKEY makes an engine in IDLE ready (R132). -/
theorem readyWith_loadkey (hu : s.unreset = false) (hst : s.st = .idle) (key : KeyBits) :
    ReadyWith (keyFragments key) (commandEdge S (.loadkey key) s) := by
  rw [commandEdge_loadkey_idle key hst]
  exact ⟨hu, hst, rfl, rfl, rfl⟩

/-- After a block the engine is ready for the next one (R142). -/
theorem ReadyWith.after_block (h : ReadyWith k s) : ReadyWith k (doneWith S d b s) :=
  ⟨h.unreset, rfl, h.keyValid, h.key, rfl⟩

/-- On a ready engine a block command and `WAIT` give the state in which the block is done. -/
theorem ReadyWith.runActs_block (h : ReadyWith k s) (rest : List HostAct) :
    runActs S (.edge (encode (blockCommand d b)) :: .wait :: rest) s =
      runActs S rest (doneWith S d b s) := by
  have hwait : wait S (clearError (latchBlock d (leftHalf b) (rightHalf b) s)) =
      .next (doneWith S d b s) := wait_of_latched h.unreset rfl rfl
  rw [runActs, clockEdgeWith_encode h.unreset,
    commandEdge_blockCommand_accepted S d b h.st h.keyValid, andThen_next, runActs, hwait,
    andThen_next]

/-! ### One call -/

/-- The bytes a call gives for its blocks: their transforms, in order (R150). -/
def resultBytes (S : SBoxTable) (d : Direction) (k : Vector Word 8) (bs : List Block) : List Byte :=
  (bs.map fun b => blockTransform S d b k).flatMap blockBytes

theorem length_resultBytes (bs : List Block) : (resultBytes S d k bs).length = 8 * bs.length := by
  rw [resultBytes, length_flatMap_blockBytes, List.length_map]

/-- On a ready engine the blocks of a call give their transforms, and leave it ready. -/
theorem ReadyWith.exists_runActs_blocks (h : ReadyWith k s) (bs : List Block) :
    ∃ t rs, runActs S (bs.flatMap (blockActs d)) s = .next (t, rs) ∧ ReadyWith k t ∧
      readingBytes rs = resultBytes S d k bs := by
  induction bs generalizing s with
  | nil => exact ⟨s, [], rfl, h, rfl⟩
  | cons b bs ih =>
    have hdone : ReadyWith k (doneWith S d b s) := h.after_block
    obtain ⟨t, rs, hrun, ht, hrs⟩ := ih hdone
    refine ⟨t, readPorts (doneWith S d b s) :: rs, ?_, ht, ?_⟩
    · refine (h.runActs_block (.read :: bs.flatMap (blockActs d))).trans ?_
      rw [runActs, hrun, andThen_next]
    · show blockBytes (doneWith S d b s).dout ++ readingBytes rs = _
      rw [hrs, doneWith_dout, h.key]
      rfl

/-- What a checked call does on an engine in IDLE after a reset (R150; log 11). -/
theorem exists_hostCrypt_ran (hb : buffer.length % 8 = 0) (hk : key.length = 32)
    (hu : s.unreset = false) (hst : s.st = .idle) :
    ∃ t, hostCrypt S d buffer key s =
        .ran (.next (t, resultBytes S d (keyFragments (packKey key)) (blocksOf buffer))) ∧
      (buffer = [] ∧ t = s ∨ buffer ≠ [] ∧ ReadyWith (keyFragments (packKey key)) t) := by
  rw [hostCrypt, hostChecks_eq_none hb hk, hostActs]
  cases hbs : blocksOf buffer with
  | nil =>
    have hnil := flatMap_blockBytes_blocksOf hb
    rw [hbs] at hnil
    exact ⟨s, rfl, .inl ⟨hnil.symm, rfl⟩⟩
  | cons b bs =>
    have hne : buffer ≠ [] := by
      rintro rfl
      cases hbs
    obtain ⟨t, rs, hrun, ht, hrs⟩ :=
      (readyWith_loadkey hu hst (packKey key)).exists_runActs_blocks (S := S) (d := d) (b :: bs)
    refine ⟨t, ?_, .inr ⟨hne, ht⟩⟩
    dsimp only
    rw [runActs, clockEdgeWith_encode hu, andThen_next, hrun, andThen_next, hrs]

/-- Settles O57: the call gives the transforms of the buffer's blocks, and block `j` of it is bytes `8j` to
`8j + 7`. -/
theorem hostCallTransformsEachChunk : Obligations.HostCallTransformsEachChunk := by
  intro S d buffer key s hb hk hu hst
  obtain ⟨t, hcall, ht⟩ := exists_hostCrypt_ran (S := S) (d := d) hb hk hu hst
  refine ⟨t, _, hcall, ?_, ?_, ?_, ?_, fun j hj => ?_⟩
  · rw [length_resultBytes, ← length_flatMap_blockBytes, flatMap_blockBytes_blocksOf hb]
  · obtain ⟨-, rfl⟩ | ⟨-, hready⟩ := ht
    · exact hst
    · exact hready.st
  · rintro rfl
    obtain ⟨-, rfl⟩ | ⟨hne, -⟩ := ht
    · rfl
    · exact absurd rfl hne
  · intro hne
    obtain ⟨hnil, -⟩ | ⟨-, hready⟩ := ht
    · exact absurd hnil hne
    · exact ⟨hready.keyValid, hready.err⟩
  · rw [← keyFragments_packKey hk]
    apply take_drop_flatMap_blockBytes
    rw [List.getElem?_map, getElem?_blocksOf hb hj]
    rfl

/-- Decrypting the bytes of an encrypted buffer of whole chunks gives the buffer back (R138). -/
theorem resultBytes_decrypt_encrypt (S : SBoxTable) (k : Vector Word 8)
    (hb : buffer.length % 8 = 0) :
    resultBytes S .decrypt k (blocksOf (resultBytes S .encrypt k (blocksOf buffer))) = buffer := by
  have hinv := (blockTransform_leftInverse S k takesReversed_decrypt_encrypt).comp_eq_id
  rw [resultBytes, resultBytes, blocksOf_flatMap_blockBytes, List.map_map, hinv, List.map_id,
    flatMap_blockBytes_blocksOf hb]

/-- Settles O58: the result of the first call is the bytes of the encrypted blocks, and decryption gives each
block back. -/
theorem hostRoundTrip : Obligations.HostRoundTrip := by
  intro S buffer key s s' hb hk hu hst hu' hst'
  obtain ⟨t, hcall, -⟩ := exists_hostCrypt_ran (S := S) (d := .encrypt) hb hk hu hst
  have hlen : (resultBytes S .encrypt (keyFragments (packKey key)) (blocksOf buffer)).length % 8 =
      0 := by
    rw [length_resultBytes, Nat.mul_mod_right]
  obtain ⟨t', hcall', -⟩ := exists_hostCrypt_ran (S := S) (d := .decrypt) hlen hk hu' hst'
  exact ⟨t, t', _, hcall, by rw [hcall', resultBytes_decrypt_encrypt S _ hb]⟩

/-! ### Several engines -/

/-- The results of the chunks run in the order `order`, each with its position. -/
def chunkResults (S : SBoxTable) (d : Direction) (k : Vector Word 8) (chunks : List Block)
    (order : List Nat) : List (Nat × Block) :=
  order.filterMap fun j => chunks[j]?.map fun c => (j, blockTransform S d c k)

/-- One chunk on an engine in IDLE after a reset gives its transform (R151; log 12). -/
theorem runChunk_eq (key : KeyBits) (c : Block) (hu : s.unreset = false) (hst : s.st = .idle) :
    runChunk S d key c s = .next (blockTransform S d c (keyFragments key)) := by
  have h := readyWith_loadkey (S := S) hu hst key
  rw [runChunk, runActs, clockEdgeWith_encode hu, andThen_next, h.runActs_block, runActs,
    andThen_next]
  show Host.Outcome.next (doneWith S d c _).dout = _
  rw [doneWith_dout, h.key]

section Fleet

variable {chunks : List Block} {engineOf : Nat → State} {order : List Nat} {j : Nat} {c : Block}

theorem chunkResults_cons_none (hj : chunks[j]? = none) :
    chunkResults S d k chunks (j :: order) = chunkResults S d k chunks order :=
  List.filterMap_cons_none (by rw [hj]; rfl)

theorem chunkResults_cons_some (hj : chunks[j]? = some c) :
    chunkResults S d k chunks (j :: order) =
      (j, blockTransform S d c k) :: chunkResults S d k chunks order :=
  List.filterMap_cons_some (by rw [hj]; rfl)

/-- The chunks run in any order, on any engines in IDLE after a reset. -/
theorem runChunks_eq (key : KeyBits)
    (he : ∀ j, (engineOf j).unreset = false ∧ (engineOf j).st = .idle) :
    runChunks S d key chunks engineOf order =
      .next (chunkResults S d (keyFragments key) chunks order) := by
  induction order with
  | nil => rfl
  | cons j order ih =>
    rw [runChunks]
    cases hj : chunks[j]? with
    | none => rw [chunkResults_cons_none hj, ← ih]
    | some c =>
      obtain ⟨hu, hst⟩ := he j
      dsimp only
      rw [runChunk_eq key c hu hst, andThen_next, ih, andThen_next, chunkResults_cons_some hj]

/-- A chunk that was run has its result at its position, wherever it stands in the order. -/
theorem lookup_chunkResults (hj : chunks[j]? = some c) (hmem : j ∈ order) :
    (chunkResults S d k chunks order).lookup j = some (blockTransform S d c k) := by
  induction order with
  | nil => cases hmem
  | cons i order ih =>
    by_cases hij : j = i
    · subst hij
      rw [chunkResults_cons_some hj, List.lookup_cons_self]
    · have hrest := ih (List.mem_of_ne_of_mem hij hmem)
      cases hi : chunks[i]? with
      | none => rw [chunkResults_cons_none hi, hrest]
      | some c' => rw [chunkResults_cons_some hi, List.lookup_cons, beq_false_of_ne hij, hrest]

end Fleet

/-- Settles O59: each position is in the order, and the result there is found wherever it stands. -/
theorem parallelHostKeepsChunkOrder : Obligations.ParallelHostKeepsChunkOrder := by
  intro S d key chunks engineOf order hperm he
  have hplaced : placeResults chunks.length (chunkResults S d (keyFragments key) chunks order) =
      chunks.map fun c => some (blockTransform S d c (keyFragments key)) := by
    refine List.ext_getElem (by simp [placeResults]) fun j _ hj => ?_
    rw [List.length_map] at hj
    have hmem : j ∈ order := hperm.mem_iff.2 (List.mem_range.2 hj)
    simp [placeResults, lookup_chunkResults (List.getElem?_eq_getElem hj) hmem]
  rw [hostCryptParallel, runChunks_eq key he, andThen_next, hplaced]

end Sys2Proof.Machine
end

section
/-!
PROOFS. The rejection statements (spec/60_exceptions.md): a rejected command is the edge without a command and
one code, said once (`commandEdge_of_rejected`), and when a command is rejected (`accepts_iff`). The codes
(R162 to R165), the precision of a rejection (R166) and the life of a code (R167) are read off these.
-/

namespace Sys2Proof.Machine

variable {s t : State} {i : Instr} {S : SBoxTable}

/-! ### What a rejected command does -/

/-- The code of the command `i` where it is rejected: ILLEGAL before BUSY before KEY_NOT_LOADED (R165). -/
def rejectionCode (i : Instr) (s : State) : ErrCode :=
  if i = .illegal then .illegal else if s.st = .run then .busy else .keyNotLoaded

theorem rejectionCode_ne_none (i : Instr) (s : State) : rejectionCode i s ≠ .none := by
  unfold rejectionCode
  split_ifs <;> simp

/-- In RUN it is the code of `runCode` (R163, R164). -/
theorem rejectionCode_of_run (hst : s.st = .run) : rejectionCode i s = runCode i := by
  cases i <;> simp [rejectionCode, runCode, hst]

/-- In IDLE only a missing key rejects a command that is not the reserved code (R162). -/
theorem rejectionCode_of_idle (hst : s.st = .idle) (hi : i ≠ .illegal) :
    rejectionCode i s = .keyNotLoaded := by
  simp [rejectionCode, hst, hi]

/-- No rejection of R162 to R164 applies to an accepted command, and one applies to any other. -/
theorem accepts_iff :
    accepts i s = true ↔
      i ≠ .illegal ∧ s.st ≠ .run ∧ ¬((∃ b, i = .enc b ∨ i = .dec b) ∧ s.keyValid = false) := by
  cases hst : s.st with
  | idle => cases i <;> simp [accepts, hst]
  | run => simp [accepts_of_run i hst]

/-- A rejected command leaves what the edge leaves without it, and its code (R163, R164, R166). -/
theorem commandEdge_of_rejected (h : accepts i s = false) :
    commandEdge S i s = reject (rejectionCode i s) (stateEdge S s) := by
  cases hst : s.st with
  | run => rw [commandEdge_run hst, rejectionCode_of_run hst, stateEdge_run hst]
  | idle =>
    rw [stateEdge_idle hst]
    cases i with
    | enc b =>
      have hk : s.keyValid = false := by simpa [accepts, hst] using h
      rw [commandEdge_enc_noKey b hst hk, rejectionCode_of_idle (i := .enc b) hst nofun]
    | dec b =>
      have hk : s.keyValid = false := by simpa [accepts, hst] using h
      rw [commandEdge_dec_noKey b hst hk, rejectionCode_of_idle (i := .dec b) hst nofun]
    | loadkey k => simp [accepts, hst] at h
    | illegal => exact commandEdge_illegal_idle hst

theorem exec_of_rejected (hu : s.unreset = false) (h : accepts i s = false) :
    exec i s = .next (reject (rejectionCode i s) (stateEdge Config.sbox s)) := by
  rw [exec_of_unreset_false hu, commandEdge_of_rejected h]

/-! ### The codes -/

/-- Settles O24: the reserved code is never accepted, and its code is the same in both states. -/
theorem reservedCodeEdge : Obligations.ReservedCodeEdge := by
  refine ⟨rfl, fun s hu => ?_⟩
  rw [exec_of_rejected (i := .illegal) hu rfl]
  refine ⟨fun hst => ?_, fun _ => ⟨_, rfl, noCommandEdge_of_unreset_false hu⟩⟩
  rw [stateEdge_idle hst]
  rfl

/-- Settles O27: without a key no block command is accepted, and in IDLE the edge itself does nothing. -/
theorem blockCommandNeedsKey : Obligations.BlockCommandNeedsKey := by
  intro s b hu hst hk i hi
  have ha : accepts i s = false := by obtain rfl | rfl := hi <;> simp [accepts, hk]
  have hne : i ≠ .illegal := by rintro rfl; simp at hi
  rw [exec_of_rejected hu ha, rejectionCode_of_idle hst hne, stateEdge_idle hst]
  exact ⟨rfl, rfl⟩

/-- Settles O28: in RUN the edge itself is the round, which keeps the key, the direction and the ports. -/
theorem commandsInRunAreBusy : Obligations.CommandsInRunAreBusy := by
  intro s i hu hst hi
  have hcode : rejectionCode i s = .busy := by simp [rejectionCode, hst, hi]
  obtain ⟨hkey, hkv, hdir, -, -, hin⟩ := runEdge_frame Config.sbox s
  rw [exec_of_rejected hu (accepts_of_run i hst), hcode, noCommandEdge_of_unreset_false hu,
    stateEdge_run hst]
  exact ⟨_, rfl, rfl, rfl, runEdge_halves Config.sbox s, hkey, hkv, hdir, hin,
    congrArg _ (runEdge_eq_reject_err _ s .busy)⟩

/-- Settles O29: the code of a rejected command comes in the order of `rejectionCode`; a reset edge gives the
reset values; and a rejection at the completion edge writes its code on top of the result. -/
theorem errorPriority : Obligations.ErrorPriority := by
  refine ⟨fun s t i h => ?_, fun s t hr h => ?_, fun s i hu hst hrc => ?_⟩
  · obtain ⟨-, rfl⟩ := exec_eq_next_iff.1 h
    cases ha : accepts i s with
    | true =>
      obtain ⟨hi, hst, hkey⟩ := accepts_iff.1 ha
      rw [commandEdge_err_of_accepts ha, if_neg hi, if_neg hst, if_neg hkey]
    | false =>
      rw [commandEdge_of_rejected ha, reject_err, rejectionCode]
      split_ifs with hi hst hkey
      · rfl
      · rfl
      · rfl
      · simp [accepts_iff.2 ⟨hi, hst, hkey⟩] at ha
  · obtain ⟨-, rfl⟩ | ⟨hr', -⟩ := step_cases h
    · rfl
    · simp [hr] at hr'
  · refine ⟨_, exec_of_rejected hu (accepts_of_run i hst), ?_⟩
    rw [stateEdge_run hst, runEdge_last hrc]
    exact ⟨rfl, rfl, rejectionCode_ne_none i s⟩

/-! ### Precision and persistence -/

/-- Settles O30: a command that leaves a code was rejected, and the edge without it keeps `ERR`. -/
theorem rejectionsArePrecise : Obligations.RejectionsArePrecise := by
  intro s t i h herr
  obtain ⟨hu, rfl⟩ := exec_eq_next_iff.1 h
  have ha : accepts i s = false := by
    rw [← Bool.not_eq_true]
    exact fun ha => herr (commandEdge_err_of_accepts ha)
  refine ⟨_, noCommandEdge_of_unreset_false hu, ?_, stateEdge_err _ s⟩
  rw [commandEdge_of_rejected ha]
  rfl

/-- Settles O31: an edge without reset and command keeps `ERR`; a command clears it or writes its code. -/
theorem errorCodePersists : Obligations.ErrorCodePersists := by
  refine ⟨fun s t h herr => ?_, fun s i hu ha => ?_, fun s i hu ha => ?_⟩
  · by_contra hno
    simp only [not_or, Bool.not_eq_true] at hno
    obtain ⟨hr, hv⟩ := hno
    rw [step_of_rst_false h hr, edgeState_noCommand hv, stateEdge_err] at herr
    exact herr rfl
  · exact ⟨_, exec_of_unreset_false hu, commandEdge_err_of_accepts ha⟩
  · exact ⟨_, exec_of_rejected hu ha, rejectionCode_ne_none i s⟩

end Sys2Proof.Machine
end

section
/-!
PROOFS. The reset and hazard statements (spec/70_reset_and_hazards.md): a reset edge (R180, R181, R184) and the
state before the first one (R182), the operand ports at an edge that accepts no command (R189), and a block
command right after LOADKEY (R190).
-/

namespace Sys2Proof.Machine

variable {s t : State} {e e' : EdgeInput} {i j : Instr} {S : SBoxTable}

/-! ### A reset edge -/

/-- A reset edge leaves the reset values, whatever the state and the other ports (R180). -/
theorem clockEdge_of_reset (hr : e.rst = true) : clockEdge e s = .next (resetEdge s) :=
  clockEdge_eq_next_iff.2 (.inl ⟨hr, rfl⟩)

/-- The status port after a reset edge is all zero (R180, R29). -/
theorem status_resetEdge (s : State) : status (resetEdge s) = 0 :=
  (status_congr (s₂ := State.reset) rfl).trans statusFields.2

/-- Settles O5: the state after the edge is `resetEdge s`, whose registers are those of `State.reset`. -/
theorem resetEdgeGivesResetValues : Obligations.ResetEdgeGivesResetValues :=
  fun s _ hr => ⟨_, clockEdge_of_reset hr, rfl, status_resetEdge s, rfl⟩

/-- Settles O53: a reset edge gives the invariant in every state, and leaves `State.reset` as it is. -/
theorem invariantAtReset : Obligations.InvariantAtReset := inv_resetEdge State.reset

/-! ### Before the first reset edge -/

/-- Before the first reset edge exactly the edges without reset are refused (R182). -/
theorem clockEdge_eq_refused_iff (hu : s.unreset = true) :
    clockEdge e s = .refused .neverReset ↔ e.rst = false := by
  cases hr : e.rst with
  | true => simp [clockEdge_of_reset hr]
  | false => simp [clockEdge_eq_with, clockEdgeWith_no_reset hr, clocked_of_unreset hu]

/-- The state after a step has been reset: no other edge has a meaning before (R182). -/
theorem unreset_of_step (h : step s = .next t) : t.unreset = false := by
  obtain ⟨-, rfl⟩ | ⟨-, hu, he⟩ := step_cases h
  · rfl
  · exact he.unreset_eq.trans hu

/-- Settles O6: the mark makes every edge without reset and every command a refusal, and no step leaves it. -/
theorem unresetEngineIsRefused : Obligations.UnresetEngineIsRefused := by
  intro r
  have hu : (State.powerUp r).unreset = true := rfl
  refine ⟨clockEdge_eq_refused_iff hu, fun i => ?_, fun t => unreset_of_step⟩
  rw [exec_eq_clocked, clocked_of_unreset hu]

/-! ### The operand ports -/

/-- The reserved code is known by its word (R64). -/
theorem eq_illegal_iff_word : i = .illegal ↔ encodeCmd3 i = 0b111 := by
  cases i <;> simp [encodeCmd3]

/-- Whether a command is accepted is read off its word and the state (R162 to R164). -/
theorem accepts_eq_of_word (i : Instr) (s : State) :
    accepts i s =
      (encodeCmd3 i != 0b111 && s.st == .idle && (encodeCmd3 i == 0b110 || s.keyValid)) := by
  cases i <;> simp [accepts, encodeCmd3]

/-- Commands with one word are accepted in the same states, whatever their operands. -/
theorem accepts_congr_word (h : encodeCmd3 i = encodeCmd3 j) : accepts i s = accepts j s := by
  rw [accepts_eq_of_word, accepts_eq_of_word, h]

/-- Commands with one word are rejected with one code, whatever their operands (R165). -/
theorem rejectionCode_congr_word (h : encodeCmd3 i = encodeCmd3 j) :
    rejectionCode i s = rejectionCode j s := by
  simp only [rejectionCode, eq_illegal_iff_word, h]

/-- A rejected command leaves the same state with any operand in its place (R166, R189). -/
theorem commandEdge_congr_word (h : encodeCmd3 i = encodeCmd3 j) (ha : accepts i s = false) :
    commandEdge S i s = commandEdge S j s := by
  rw [commandEdge_of_rejected ha, commandEdge_of_rejected ((accepts_congr_word h).symm.trans ha),
    rejectionCode_congr_word h]

/-- An edge that accepts no command reads nothing of its sample but the control part (R189). -/
theorem edgeState_congr_controlPart (hctrl : e.controlPart = e'.controlPart)
    (hrej : ∀ i, decode e = .instr i → accepts i s = false) :
    edgeState S e s = edgeState S e' s := by
  have hvalid : e.cmdValid = e'.cmdValid := congrArg (fun p => p.2.1) hctrl
  have hcmd : e.cmd = e'.cmd := congrArg (fun p => p.2.2) hctrl
  cases hv : e.cmdValid with
  | false => rw [edgeState_noCommand hv, edgeState_noCommand (hvalid.symm.trans hv)]
  | true =>
    obtain ⟨i, hd, hword, -⟩ := exists_decode_of_cmdValid hv
    obtain ⟨j, hd', hword', -⟩ := exists_decode_of_cmdValid (hvalid.symm.trans hv)
    have hsame : cmd3 e = cmd3 e' := by rw [cmd3, cmd3, hvalid, hcmd]
    rw [edgeState_command hd, edgeState_command hd']
    exact commandEdge_congr_word (hword.symm.trans (hsame.trans hword')) (hrej i hd)

/-- Settles O43: a reset edge reads no other port, and an edge that accepts nothing reads no operand. -/
theorem operandsMatterOnlyWhenAccepted : Obligations.OperandsMatterOnlyWhenAccepted := by
  intro s e e' hctrl h
  have hrst : e.rst = e'.rst := congrArg Prod.fst hctrl
  cases hr : e.rst with
  | true => rw [clockEdge_of_reset hr, clockEdge_of_reset (hrst.symm.trans hr)]
  | false =>
    rw [clockEdge_eq_with, clockEdge_eq_with, clockEdgeWith_no_reset hr,
      clockEdgeWith_no_reset (hrst.symm.trans hr), clocked, clocked,
      edgeState_congr_controlPart hctrl (h.resolve_left (by simp [hr]))]

/-! ### A block right after its key -/

/-- Settles O42: LOADKEY leaves an engine that accepts the block, and the block runs under the new key. -/
theorem newKeyIsUsedAtOnce : Obligations.NewKeyIsUsedAtOnce := by
  intro s k d b es hu hst hes hlen
  have hready := readyWith_loadkey (S := Config.sbox) hu hst k
  rw [runOn_cons, clockEdge_eq_with, clockEdgeWith_encode hu, andThen_next,
    runOn_block hready.unreset hready.st hready.keyValid rfl (decode_encode _) hes hlen]
  refine ⟨_, rfl, rfl, ?_⟩
  rw [blockOut, reject_dout, doneWith_dout, hready.key]

end Sys2Proof.Machine
end
